-- ==== Sys2Proof/Word.lean ====
section
/-! DEFINITION. The word types of the block: 32-bit command, operand, response and framebuffer row words
(30_encoding.md R60, 10_state.md R22), and the bytes of frames and chip registers (30_encoding.md R70). -/

namespace Sys2Proof

/-- A byte of a frame or of a chip register. -/
abbrev Byte := BitVec 8

/-- A 32-bit word: `CMD`, `ARG`, `RESP` or one framebuffer row. -/
abbrev Word := BitVec 32

end Sys2Proof
end

