-- ==== Sys2Proof/Syntax.lean ====
section
/-! DEFINITION. The command set (30_encoding.md R65): one constructor per row of spec/opcode_table.json, its operands as
R63 reads them. -/

namespace Sys2Proof

/-- A command with its operands. `intens`, `x`, `y` are signed integers and the other operands unsigned (R63). -/
inductive Instr where
  /-- `INIT i` (44_lifecycle.md R163) -/
  | init (intens : Int)
  /-- `SETPX x, y, on` (42_framebuffer.md R122) -/
  | setpx (x y : Int) (on : Bool)
  /-- `CLEAR` (42_framebuffer.md R121) -/
  | clear
  /-- `FLUSH` (43_flush.md R142) -/
  | flush
  /-- `SHUTDOWN` (44_lifecycle.md R165) -/
  | shutdown
  /-- `GETPX x, y` (42_framebuffer.md R123) -/
  | getpx (x y : Int)
  /-- `BCAST reg, data` (41_encoder.md R103) -/
  | bcast (reg data : Byte)
  /-- `ROW r, d0, d1, d2, d3` (41_encoder.md R104); `devData[d]` is logical device d's byte (30_encoding.md R64) -/
  | row (rowSel : Byte) (devData : Vector Byte 4)
  deriving DecidableEq, Repr

/-- The eight opcodes, without operands. -/
inductive Op where
  | init
  | setpx
  | clear
  | flush
  | shutdown
  | getpx
  | bcast
  | row
  deriving DecidableEq, Repr

/-- The opcode of a command. -/
def Instr.op : Instr → Op
  | .init _ => .init
  | .setpx _ _ _ => .setpx
  | .clear => .clear
  | .flush => .flush
  | .shutdown => .shutdown
  | .getpx _ _ => .getpx
  | .bcast _ _ => .bcast
  | .row _ _ => .row

/-- The mnemonic, as spec/opcode_table.json spells it (30_encoding.md R65). -/
def Op.mnemonic : Op → String
  | .init => "INIT"
  | .setpx => "SETPX"
  | .clear => "CLEAR"
  | .flush => "FLUSH"
  | .shutdown => "SHUTDOWN"
  | .getpx => "GETPX"
  | .bcast => "BCAST"
  | .row => "ROW"

end Sys2Proof
end

