-- ==== Sys2Proof/WellFormed.lean ====
section
/-! DEFINITION. Which commands the encoding can carry (30_encoding.md R69): "`i`, `x` and `y` must lie in -128..127;
`reg`, `data`, `r` and `d0`..`d3` in 0..255; `on` in {0, 1}; an assembler refuses any other value". The unsigned operands
and `on` are in range by their types. -/

namespace Sys2Proof

/-- Why a command cannot be encoded. -/
inductive IllFormed where
  | intensity
  | column
  | row
  deriving DecidableEq, Repr

/-- The range of a signed 8-bit operand (R63). -/
abbrev SignedByte (v : Int) : Prop := -128 ≤ v ∧ v ≤ 127

/-- The check on a pixel's coordinates. -/
def checkCoordinates (x y : Int) : Option IllFormed :=
  if ¬ SignedByte x then some .column
  else if ¬ SignedByte y then some .row
  else none

/-- The first check that a command fails, if any. -/
def Instr.check : Instr → Option IllFormed
  | .init intens => if SignedByte intens then none else some .intensity
  | .setpx x y _ => checkCoordinates x y
  | .clear => none
  | .flush => none
  | .shutdown => none
  | .getpx x y => checkCoordinates x y
  | .bcast _ _ => none
  | .row _ _ => none

/-- A command that the assembler accepts and the encoding can carry. -/
abbrev Instr.WellFormed (i : Instr) : Prop := i.check = none

end Sys2Proof
end

