-- ==== Sys2Proof/Decode.lean ====
section
/-! DEFINITION. The opcode map, the decoder, total on every `(CMD, ARG)`, and after it the encoder
(30_encoding.md R62 to R69). -/

namespace Sys2Proof

/-- A row of the opcode map (R65): a command word `w` selects it when `w &&& mask = pattern`. -/
structure OpcodeRow where
  op      : Op
  pattern : Word
  mask    : Word
  deriving DecidableEq, Repr

/-- The opcode map of R65, in the spec's order. -/
def opcodeTable : List OpcodeRow :=
  [ ⟨.init,     0x10000000, 0xFFFFFF00⟩,
    ⟨.setpx,    0x20000000, 0xFFFE0000⟩,
    ⟨.clear,    0x30000000, 0xFFFFFFFF⟩,
    ⟨.flush,    0x40000000, 0xFFFFFFFF⟩,
    ⟨.shutdown, 0x50000000, 0xFFFFFFFF⟩,
    ⟨.getpx,    0x60000000, 0xFFFF0000⟩,
    ⟨.bcast,    0x70000000, 0xFFFF0000⟩,
    ⟨.row,      0x80000000, 0xFFFFFF00⟩ ]

/-- Whether a command word selects a row (R65). -/
def OpcodeRow.selects (r : OpcodeRow) (cmd : Word) : Bool := cmd &&& r.mask == r.pattern

/-- Why a command word is `ILLEGAL` (R67). Both answer the same `IllegalCommand`. -/
inductive Illegal where
  /-- `OPC` is 0x0 or 0x9..0xF -/
  | reservedOpcode
  /-- a reserved bit of the opcode's format is set -/
  | reservedBit
  deriving DecidableEq, Repr

/-- `OPC = CMD[31:28]` (R62). -/
def opc (cmd : Word) : BitVec 4 := cmd.extractLsb' 28 4

/-- The low operand byte `CMD[7:0]` (R62). -/
def lowByte (cmd : Word) : Byte := cmd.extractLsb' 0 8

/-- The second operand byte `CMD[15:8]` (R62). -/
def secondByte (cmd : Word) : Byte := cmd.extractLsb' 8 8

/-- `DEVDATA[d] = ARG[8d+7:8d]` (R64). -/
def devDataOf (arg : Word) : Vector Byte 4 :=
  #v[arg.extractLsb' 0 8, arg.extractLsb' 8 8, arg.extractLsb' 16 8, arg.extractLsb' 24 8]

/-- The operands of a selected opcode, as R63 reads them: `INTENS`, `X`, `Y` sign-extended, the others
zero-extended. -/
def operands (op : Op) (cmd arg : Word) : Instr :=
  match op with
  | .init => .init (lowByte cmd).toInt
  | .setpx => .setpx (lowByte cmd).toInt (secondByte cmd).toInt (cmd.getLsbD 16)
  | .clear => .clear
  | .flush => .flush
  | .shutdown => .shutdown
  | .getpx => .getpx (lowByte cmd).toInt (secondByte cmd).toInt
  | .bcast => .bcast (secondByte cmd) (lowByte cmd)
  | .row => .row (lowByte cmd) (devDataOf arg)

/-- `Decode` of R66: the row that the command word selects, or `ILLEGAL`. It never depends on the block's state. -/
def decode (cmd arg : Word) : Except Illegal Instr :=
  match opcodeTable.find? (fun r => r.selects cmd) with
  | some r => .ok (operands r.op cmd arg)
  | none =>
    if opcodeTable.any (fun r => opc r.pattern == opc cmd) then .error .reservedBit
    else .error .reservedOpcode

/-- The decoder on an instruction whose bits are `w`, bit 0 the least significant of the first word: `CMD` is bits 31..0
and `ARG` bits 63..32. Bits at `nbits` and above are 0. -/
def decodeTableWord (nbits w : Nat) : Option Instr :=
  let bits := w % 2 ^ nbits
  match decode (BitVec.ofNat 32 bits) (BitVec.ofNat 32 (bits / 2 ^ 32)) with
  | .ok i => some i
  | .error _ => none

/-- A byte at bits low+7..low of a word. -/
def byteAt (low : Nat) (b : Byte) : Word := b.setWidth 32 <<< low

/-- The packed operand word of ROW (R69): `(d3 << 24) | (d2 << 16) | (d1 << 8) | d0`. -/
def devDataWord (d : Vector Byte 4) : Word := byteAt 24 d[3] ||| byteAt 16 d[2] ||| byteAt 8 d[1] ||| byteAt 0 d[0]

/-- The words `(CMD, ARG)` of a command (R69); `v & 0xFF` of a signed operand is its 8-bit two's complement, and `ARG` is 0
where it is ignored. For a command that is not well formed the signed operands are cut to 8 bits. -/
def encode : Instr → Word × Word
  | .init intens => (0x10000000 ||| byteAt 0 (BitVec.ofInt 8 intens), 0)
  | .setpx x y on =>
    (0x20000000 ||| (BitVec.ofBool on).setWidth 32 <<< 16 ||| byteAt 8 (BitVec.ofInt 8 y)
      ||| byteAt 0 (BitVec.ofInt 8 x), 0)
  | .clear => (0x30000000, 0)
  | .flush => (0x40000000, 0)
  | .shutdown => (0x50000000, 0)
  | .getpx x y => (0x60000000 ||| byteAt 8 (BitVec.ofInt 8 y) ||| byteAt 0 (BitVec.ofInt 8 x), 0)
  | .bcast reg data => (0x70000000 ||| byteAt 8 reg ||| byteAt 0 data, 0)
  | .row rowSel devData => (0x80000000 ||| byteAt 0 rowSel, devDataWord devData)

/-- The assembler's last stage (R69): the words of a command, refused where an operand is out of range. -/
def assemble (i : Instr) : Option (Word × Word) :=
  if i.WellFormed then some (encode i) else none

end Sys2Proof
end

