-- ==== Sys2Proof/Config.lean ====
section
/-! DEFINITION. What is fixed when the block is built: the elaboration parameters of 00_scope.md R6, the types of the
bus port (40_bus_transport.md R80), and the free values, which are constants with no body. -/

namespace Sys2Proof

/-- `P_CHAIN_ORDER` (R6, 41_encoder.md R102): which device's pair is handed to the bus first. -/
inductive ChainOrder where
  | farthestFirst
  | nearestFirst
  deriving DecidableEq, Repr, Inhabited

/-- `P_BIT_POLARITY` (R6, 42_framebuffer.md R124): which bit of a row byte is the leftmost column. -/
inductive BitPolarity where
  | msbLeft
  | lsbLeft
  deriving DecidableEq, Repr, Inhabited

/-- The elaboration parameters of R6 that a build may set. No command reads or writes them at run time; the model
carries them beside the state so that every statement holds for every setting (DESIGN CHOICE, log 7: safe). -/
structure Params where
  chainOrder        : ChainOrder
  bitPolarity       : BitPolarity
  clockHz           : Nat
  regDisplayTest    : Byte
  regDecodeMode     : Byte
  regIntensity      : Byte
  regScanLimit      : Byte
  regShutdown       : Byte
  valDisplayTestOff : Byte
  valNoDecode       : Byte
  valScanAll8       : Byte
  valNormalOp       : Byte
  deriving DecidableEq, Repr

/-- R6: `P_CLOCK_HZ` is "any positive integer"; no other parameter has an inadmissible value. -/
abbrev Params.wf (p : Params) : Prop := 0 < p.clockHz

/-- The normative defaults of R6. The five register addresses and four control values are the spec's own
`[from general knowledge, not in source]` defaults (93 G1, G2; PRESUMED, log 7: unsafe if the chips are of another
family). -/
def Config.defaults : Params where
  chainOrder        := .farthestFirst
  bitPolarity       := .msbLeft
  clockHz           := 10000000
  regDisplayTest    := 0x0F
  regDecodeMode     := 0x09
  regIntensity      := 0x0A
  regScanLimit      := 0x0B
  regShutdown       := 0x0C
  valDisplayTestOff := 0x00
  valNoDecode       := 0x00
  valScanAll8       := 0x07
  valNormalOp       := 0x01

/-- `N`, fixed (R6, decision D22). -/
abbrev Config.numDevices : Nat := 4
/-- `HEIGHT`, fixed (R6). -/
abbrev Config.height : Nat := 8
/-- `WIDTH` = 8 N, fixed (R6). -/
abbrev Config.width : Nat := 32
/-- `DEV_COLS`, fixed (R6). -/
abbrev Config.devCols : Nat := 8
/-- `FRAME_LEN` = 2 N, fixed (R6). -/
abbrev Config.frameLen : Nat := 8
/-- `ROW_MIN` (R6). -/
abbrev Config.rowMin : Nat := 1
/-- `ROW_MAX` (R6). -/
abbrev Config.rowMax : Nat := 8
/-- `INTENSITY_MIN` (R6). -/
abbrev Config.intensityMin : Int := 0
/-- `INTENSITY_MAX` (R6). -/
abbrev Config.intensityMax : Int := 15
/-- `P_SPI_MODE` (R6): "The block always sends `mode = P_SPI_MODE = 0`" (40_bus_transport.md R82). -/
abbrev Config.spiMode : Nat := 0
/-- `P_WORD_BITS` (R6, 40_bus_transport.md R82). -/
abbrev Config.wordBits : Nat := 8

/-- `P_BUS_ID` (R6): the opaque identifier of the bus and chip-select line. `OPEN` carries no operand ("the bus is
`P_BUS_ID`", 40_bus_transport.md R80), so no rule reads it (log 14). -/
opaque Config.busId : Nat

/-- A frame: the 8 bytes of one `WRITE`, in wire order (30_encoding.md R70). -/
abbrev Frame := Vector Byte 8

/-- The parameter that a rejected `CONFIGURE` names (40_bus_transport.md R80). -/
inductive CfgParam where
  | mode
  | wordSize
  | clock
  deriving DecidableEq, Repr, Inhabited

/-- The four kinds of bus request (40_bus_transport.md R80): `OPEN`, `CONFIGURE`, `WRITE`, `CLOSE`. -/
inductive BusRequest where
  | openBus
  | configure (mode wordBits clockHz : Nat)
  | write (frame : Frame)
  | closeBus
  deriving DecidableEq, Repr

/-- What the transport answers, should it answer (40_bus_transport.md R80): the part that belongs to the request's kind
is read and the others are not. `opens`: `OPEN` answers `OK`. `rejects`: `CONFIGURE` answers `REJECT(p)`, or `OK` when
`none`. `accepts`: the count n, 0 to 8, that `WRITE` answers; a transport failure of any kind is a count below 8 (R86).
`CLOSE` reads none of them (R85). -/
structure Reply where
  opens   : Bool
  rejects : Option CfgParam
  accepts : Fin 9
  deriving DecidableEq, Repr, Inhabited

/-- The transport's side of one request: an answer, or none ever (40_bus_transport.md R89). -/
inductive Answer where
  | never
  | given (reply : Reply)
  deriving DecidableEq, Repr, Inhabited

/-- FREE VALUE (log 3). The transport's answer to bus request number `n` of the run where the state lists no answer for
it: "a free input of the model (an oracle answer), under no law except its type" (40_bus_transport.md R80). -/
opaque Config.transportAnswer : Nat → Answer

/-- FREE VALUE (log 10). What a chip register whose contents are unknown holds: at power-up (70_reset_and_hazards.md
R221) and after a short write (40_bus_transport.md R84). First argument: how many times so far some chip contents became
unknown. Second: the register's address. -/
opaque Config.chipByte : Nat → Nat → Byte

end Sys2Proof
end

