-- ==== Sys2Proof/Machine/State.lean ====
section
/-! DEFINITION. The state as plain data: the spec's own tuple (10_state.md R20), and beside it the parameters, what the
host and the transport offer, what a run makes observable (00_scope.md R8), and the chips' registers (10_state.md R32). -/

namespace Sys2Proof.Machine

/-- `LC` (10_state.md R24). The value 3 is "never held; no rule writes it" (93 I15), so the type leaves it out
(log 9). -/
inductive Lifecycle where
  | uninit
  | ready
  | closed
  deriving DecidableEq, Repr, Inhabited

/-- What the host offers on the command port, or the environment's reset. -/
inductive HostEvent where
  /-- a command, the word pair `(CMD, ARG)` (30_encoding.md R60) -/
  | command (cmd arg : Word)
  /-- reset is asserted (70_reset_and_hazards.md R220) -/
  | reset
  deriving DecidableEq, Repr

/-- Byte cells by address, addresses strictly rising (`Memory.wf`); it holds the chip registers whose value is known. -/
abbrev Memory := List Host.Cell

/-- The registers of the four LED driver chips (20_memory.md R41, 60_exceptions.md R205). The block never reads them. -/
structure Chips where
  /-- the registers whose value is known, register `a` of device `d` at address 256 d + a -/
  known           : Memory
  /-- how many times some contents became unknown: the index the free values are read at (log 10) -/
  epoch           : Nat
  /-- a short write made the row registers unknown, and no complete flush came since (70_reset_and_hazards.md R228) -/
  rowsDoubtful    : Bool
  /-- a short write made the control registers unknown, and no complete INIT came since (R228) -/
  controlDoubtful : Bool
  deriving DecidableEq, Repr

/-- The state. The first five fields are the spec's architectural state, exactly (10_state.md R20). -/
@[ext]
structure State where
  /-- `FB[0..7]`: row y's word, bit x is column x (R22) -/
  fb        : Vector Word 8
  /-- `LC` (R24) -/
  lc        : Lifecycle
  /-- `BUS_OPEN` (R25) -/
  busOpen   : Bool
  /-- `RESP` (R26) -/
  resp      : Word
  /-- `BUSY` (R27) -/
  busy      : Bool
  /-- the elaboration parameters (00_scope.md R6), written by no step (log 7) -/
  params    : Params
  /-- what the host offers, oldest first (log 2) -/
  inbox     : List HostEvent
  /-- the response words delivered, oldest first (30_encoding.md R60) -/
  responses : List Word
  /-- the transport's answers to the requests to come, first first; beyond them the answers are free (log 3) -/
  answers   : List Answer
  /-- the bus trace, oldest request first (00_scope.md R8) -/
  trace     : List BusRequest
  /-- the chips' registers (10_state.md R32) -/
  chips     : Chips
  deriving DecidableEq, Repr

/-- The reasons a step could stop the machine with a fault: NONE. Every error of the spec is reported in a response word
and the block goes on (60_exceptions.md R190, R194), and a transport that never answers is "a hang of the block, not a
fault" (40_bus_transport.md R89). No one raises a fault (log 15: safe). -/
inductive Fault where
  deriving DecidableEq, Repr

/-- The reasons a step could be refused. -/
inductive Refusal where
  /-- Raised only by an arm of `exec` for an instruction with no meaning yet; there is none. Safe. -/
  | notModelled (mnemonic : String)
  deriving DecidableEq, Repr

/-- The state right after power-up and reset (70_reset_and_hazards.md R220): `FB` all 0 (10_state.md R33), `LC = UNINIT`
(R24), `BUS_OPEN = 0` (R25), `RESP = 0x00000000` (R26), `BUSY = 0` (R27). Around them: the normative parameters
(00_scope.md R6), nothing offered or observed yet, no answer fixed (log 3), and chips whose contents are unknown
(R221, log 10) with no short write behind them. -/
def State.reset : State where
  fb        := Vector.replicate 8 0
  lc        := .uninit
  busOpen   := false
  resp      := 0
  busy      := false
  params    := Config.defaults
  inbox     := []
  responses := []
  answers   := []
  trace     := []
  chips     := { known := [], epoch := 0, rowsDoubtful := false, controlDoubtful := false }

end Sys2Proof.Machine
end

