-- ==== Sys2Proof/Machine/Operands.lean ====
section
/-! DEFINITION. The operand forms: a pixel's coordinates (42_framebuffer.md R120), the intensity (44_lifecycle.md R160),
and framebuffer cells (20_memory.md R40, 00_scope.md R11). -/

namespace Sys2Proof.Machine

/-- `InRange(x, y)` (R120), compared as signed integers. -/
abbrev InRange (x y : Int) : Prop := 0 ≤ x ∧ x < 32 ∧ 0 ≤ y ∧ y < 8

/-- The cell, column and row, that a pair of coordinates addresses: "A coordinate outside the ranges addresses no cell"
(20_memory.md R40). -/
def cellOf (x y : Int) : Option (Fin 32 × Fin 8) :=
  if InRange x y then some (Fin.ofNat 32 x.toNat, Fin.ofNat 8 y.toNat) else none

/-- `clamp(v)` (44_lifecycle.md R160). -/
def clamp (v : Int) : Int :=
  if v < Config.intensityMin then Config.intensityMin
  else if v > Config.intensityMax then Config.intensityMax
  else v

/-- The data byte of INIT's step 3, `zext_8(clamp(INTENS))` (44_lifecycle.md R162). -/
def intensityByte (intens : Int) : Byte := BitVec.ofInt 8 (clamp intens)

/-- `FB[y]` (10_state.md R22). -/
def State.row (s : State) (y : Fin 8) : Word := s.fb[y]

/-- `FB[y][x]` (10_state.md R22): bit x of row y is column x. -/
def State.cell (s : State) (x : Fin 32) (y : Fin 8) : Bool := (s.row y).getLsbD x

/-- A row word with the bit of column `x` set to `on`. -/
def setColumn (w : Word) (x : Fin 32) (on : Bool) : Word :=
  if on then w ||| (1#32 <<< x.val) else w &&& ~~~(1#32 <<< x.val)

/-- `FB[y][x] <- on`, that bit alone (00_scope.md R11). -/
def State.setCell (s : State) (x : Fin 32) (y : Fin 8) (on : Bool) : State :=
  { s with fb := s.fb.set y (setColumn (s.row y) x on) }

/-- Every row written to 0 (42_framebuffer.md R121). -/
def State.clearFb (s : State) : State := { s with fb := Vector.replicate 8 0 }

/-- `MemRead(a, 1)`: the cell at linear bit address a = 32 y + x (00_scope.md R11, 20_memory.md R40). -/
def State.memRead (s : State) (a : Fin 256) : Bool :=
  s.cell (Fin.ofNat 32 (a.val % 32)) (Fin.ofNat 8 (a.val / 32))

/-- `MemWrite(a, 1, b)` (00_scope.md R11). -/
def State.memWrite (s : State) (a : Fin 256) (b : Bool) : State :=
  s.setCell (Fin.ofNat 32 (a.val % 32)) (Fin.ofNat 8 (a.val / 32)) b

end Sys2Proof.Machine
end

