-- ==== Sys2Proof/Machine/Frames.lean ====
section
/-! DEFINITION. The chip protocol encoder and the bit-packer: slots (41_encoder.md R102), the two frame formats
(R100, R101), the packer (42_framebuffer.md R124, R125), the frames of a flush (43_flush.md R140) and of an
initialisation (44_lifecycle.md R161). -/

namespace Sys2Proof.Machine

/-- `slot(d)` (41_encoder.md R102): the slot that carries logical device d's pair. -/
def slot : ChainOrder → Fin 4 → Fin 4
  | .farthestFirst, d => ⟨3 - d.val, by omega⟩
  | .nearestFirst, d => d

/-- The logical device whose pair slot `s` carries (20_memory.md R44): under either order `slot` is its own inverse. -/
def deviceAt (o : ChainOrder) (s : Fin 4) : Fin 4 := slot o s

/-- Offset `2s`, the register byte of slot s (30_encoding.md R70). -/
def regOffset (s : Fin 4) : Fin 8 := ⟨2 * s.val, by omega⟩

/-- Offset `2s+1`, the data byte of slot s (30_encoding.md R70). -/
def dataOffset (s : Fin 4) : Fin 8 := ⟨2 * s.val + 1, by omega⟩

/-- `encodeBroadcast(reg, data)` (41_encoder.md R100): the same pair in every slot; it checks nothing. -/
def encodeBroadcast (reg data : Byte) : Frame := #v[reg, data, reg, data, reg, data, reg, data]

/-- The row frame R(r, D) (30_encoding.md R72), in wire order: `r` before each device's byte, the devices in slot
order. -/
def rowBytes (o : ChainOrder) (r : Byte) (D : Vector Byte 4) : Frame :=
  #v[r, D[deviceAt o 0], r, D[deviceAt o 1], r, D[deviceAt o 2], r, D[deviceAt o 3]]

/-- `encodeRow(r, D)` (41_encoder.md R101); `none` is `InvalidRow`. The check comes before any byte is built. -/
def encodeRow (o : ChainOrder) (r : Int) (D : Vector Byte 4) : Option Frame :=
  if r < Config.rowMin ∨ r > Config.rowMax then none
  else some (rowBytes o (BitVec.ofInt 8 r) D)

/-- `col(b)` (42_framebuffer.md R124): the column, within a device's block, of bit b of its row byte. It is its own
inverse, so it is also the bit of column c. -/
def colOf : BitPolarity → Fin 8 → Fin 8
  | .msbLeft, b => ⟨7 - b.val, by omega⟩
  | .lsbLeft, b => b

/-- The byte whose bit b is `f b`. -/
def byteOfBits (f : Fin 8 → Bool) : Byte :=
  [0, 1, 2, 3, 4, 5, 6, 7].foldl
    (fun acc (b : Fin 8) => acc ||| ((BitVec.ofBool (f b)).setWidth 8 <<< b.val)) 0

/-- `pack(y, d)` (42_framebuffer.md R124) of row word `w`: bit b is column 8 d + col(b). -/
def pack (q : BitPolarity) (w : Word) (d : Fin 4) : Byte :=
  byteOfBits (fun b => w.getLsbD (8 * d.val + (colOf q b).val))

/-- `packRow(y)` (42_framebuffer.md R125) of row word `w`. -/
def packRow (q : BitPolarity) (w : Word) : Vector Byte 4 := #v[pack q w 0, pack q w 1, pack q w 2, pack q w 3]

/-- The frame of framebuffer row y in a flush (43_flush.md R140, R141): row selector y+1. It is what `encodeRow` answers
(R143). -/
def flushFrame (p : Params) (fb : Vector Word 8) (y : Fin 8) : Frame :=
  rowBytes p.chainOrder (BitVec.ofNat 8 (y.val + 1)) (packRow p.bitPolarity fb[y])

/-- The eight frames of a flush, rows in increasing order (43_flush.md R141). -/
def flushFrames (p : Params) (fb : Vector Word 8) : List Frame :=
  [flushFrame p fb 0, flushFrame p fb 1, flushFrame p fb 2, flushFrame p fb 3,
   flushFrame p fb 4, flushFrame p fb 5, flushFrame p fb 6, flushFrame p fb 7]

/-- The (register, data) pairs of INIT's steps 0..4 (44_lifecycle.md R161). -/
def initControlSteps (p : Params) (intens : Int) : List (Byte × Byte) :=
  [ (p.regDisplayTest, p.valDisplayTestOff),
    (p.regDecodeMode, p.valNoDecode),
    (p.regScanLimit, p.valScanAll8),
    (p.regIntensity, intensityByte intens),
    (p.regShutdown, p.valNormalOp) ]

/-- The (register, data) pairs of INIT's steps 5..12 (44_lifecycle.md R161): data 0x00 to row registers 1..8. -/
def initRowSteps : List (Byte × Byte) :=
  [(1, 0), (2, 0), (3, 0), (4, 0), (5, 0), (6, 0), (7, 0), (8, 0)]

/-- The 13 broadcast frames of INIT, in order (44_lifecycle.md R161). -/
def initFrames (p : Params) (intens : Int) : List Frame :=
  (initControlSteps p intens ++ initRowSteps).map (fun st => encodeBroadcast st.1 st.2)

end Sys2Proof.Machine
end

