-- ==== Sys2Proof/Machine/ChipRegisters.lean ====
section
/-! DEFINITION. The chips' registers: memory cells in canonical form, what a frame the transport accepts whole writes
(41_encoder.md R107), what a short write leaves (40_bus_transport.md R84, 70_reset_and_hazards.md R228), and the LEDs a
row register drives (60_exceptions.md R207). -/

namespace Sys2Proof.Machine

/-- The canonical form: addresses strictly rising. What an unlisted address reads as is a free value, so no listed cell
can be redundant. -/
abbrev Memory.wf (m : Memory) : Prop := m.Pairwise (fun a b => a.1 < b.1)

/-- The listed byte at an address. -/
def Memory.read : Memory → Nat → Option Byte
  | [], _ => none
  | c :: m, a => if c.1 = a then some c.2 else Memory.read m a

/-- The memory with the byte at an address listed as `v`. -/
def Memory.write : Memory → Nat → Byte → Memory
  | [], a, v => [(a, v)]
  | c :: m, a, v =>
    if a < c.1 then (a, v) :: c :: m
    else if a = c.1 then (a, v) :: m
    else c :: Memory.write m a v

/-- The kinds of chip register (60_exceptions.md R205). -/
inductive RegClass where
  /-- a row register, address 1..8 -/
  | row
  /-- one of the five control registers of 00_scope.md R6 -/
  | control
  /-- an address the block does not name (93 I13) -/
  | unnamed
  deriving DecidableEq, Repr

/-- The kind of the register at an address (60_exceptions.md R205). DESIGN CHOICE (log 17): in a build whose control
register parameter lies in 1..8, which 00_scope.md R6 does not forbid, that address is a row register, so that a complete
flush, and not a complete INIT, ends its doubt after a short write; the spec does not say which. -/
def regClass (p : Params) (a : Byte) : RegClass :=
  if 1 ≤ a.toNat ∧ a.toNat ≤ 8 then .row
  else if a = p.regDisplayTest ∨ a = p.regDecodeMode ∨ a = p.regIntensity ∨ a = p.regScanLimit ∨ a = p.regShutdown then
    .control
  else .unnamed

/-- The address of register `a` of device `d`. -/
def chipAddress (d : Fin 4) (a : Byte) : Nat := 256 * d.val + a.toNat

/-- Whether some short write's effect is not yet undone (70_reset_and_hazards.md R228). -/
def Chips.doubtful (c : Chips) : Bool := c.rowsDoubtful || c.controlDoubtful

/-- Whether a frame's write to a register of this address is known to have taken effect (70_reset_and_hazards.md R228);
never for an address the block does not name, where "what the chips do" is any value (93 I13, log 12). -/
def Chips.trusts (p : Params) (c : Chips) (a : Byte) : Bool :=
  match regClass p a with
  | .row => !c.rowsDoubtful
  | .control => !c.controlDoubtful
  | .unnamed => false

/-- What register `a` of device `d` holds: the value last written where that is known, and a free value where it is not:
at power-up (70_reset_and_hazards.md R221), after a short write (40_bus_transport.md R84) and at an address the block does
not name (93 I13). -/
def Chips.reg (p : Params) (c : Chips) (d : Fin 4) (a : Byte) : Byte :=
  let free := Config.chipByte c.epoch (chipAddress d a)
  if c.trusts p a then (Memory.read c.known (chipAddress d a)).getD free else free

/-- A pair reaching register `a` of device `d` (41_encoder.md R107). While some contents are doubtful the frame may land
wrongly (70_reset_and_hazards.md R228), and what an unnamed address does is not stated (93 I13): then every unknown
register holds a new free value. -/
def Chips.landPair (p : Params) (c : Chips) (d : Fin 4) (a v : Byte) : Chips :=
  let c := if c.doubtful || regClass p a == .unnamed then { c with epoch := c.epoch + 1 } else c
  if c.trusts p a then { c with known := c.known.write (chipAddress d a) v } else c

/-- A frame accepted whole (41_encoder.md R107): in every device d, the data byte of slot `slot(d)` goes to the register
whose address is that slot's register byte. -/
def Chips.latch (p : Params) (c : Chips) (f : Frame) : Chips :=
  [0, 1, 2, 3].foldl
    (fun c d => c.landPair p d f[regOffset (slot p.chainOrder d)] f[dataOffset (slot p.chainOrder d)]) c

/-- A short write (40_bus_transport.md R84): every register of every chip is unknown from here on. -/
def Chips.spoil (c : Chips) : Chips :=
  { known := [], epoch := c.epoch + 1, rowsDoubtful := true, controlDoubtful := true }

/-- A flush has completed: the row registers hold what its frames carried, whatever they held before
(70_reset_and_hazards.md R225, R228). -/
def Chips.settleRows (p : Params) (c : Chips) (frames : List Frame) : Chips :=
  frames.foldl (Chips.latch p) { c with rowsDoubtful := false }

/-- An initialisation has completed: the control registers hold what its frames carried, whatever they held before
(70_reset_and_hazards.md R226, R228). -/
def Chips.settleControl (p : Params) (c : Chips) (frames : List Frame) : Chips :=
  frames.foldl (Chips.latch p) { c with controlDoubtful := false }

/-- What register `a` of device `d` holds in a state. -/
def State.chipReg (s : State) (d : Fin 4) (a : Byte) : Byte := s.chips.reg s.params d a

/-- The row register bit that drives the LED at column x, row y (60_exceptions.md R207): bit b of device d's row register
y+1 drives column 8 d + col(b). Whether the device shows its row registers is `State.showsRows`. It holds as `P_BIT_POLARITY` and `P_CHAIN_ORDER` assume the wiring
(log 13). -/
def State.led (s : State) (x : Fin 32) (y : Fin 8) : Bool :=
  (s.chipReg ⟨x.val / 8, by omega⟩ (BitVec.ofNat 8 (y.val + 1))).getLsbD
    (colOf s.params.bitPolarity ⟨x.val % 8, by omega⟩).val

/-- Device d's control registers have the values that make it show its row registers (60_exceptions.md R206): display
test off, raw decode, all 8 rows scanned, normal operation. -/
abbrev State.showsRows (s : State) (d : Fin 4) : Prop :=
  s.chipReg d s.params.regDisplayTest = s.params.valDisplayTestOff ∧
  s.chipReg d s.params.regDecodeMode = s.params.valNoDecode ∧
  s.chipReg d s.params.regScanLimit = s.params.valScanAll8 ∧
  s.chipReg d s.params.regShutdown = s.params.valNormalOp

end Sys2Proof.Machine
end

