-- ==== Sys2Proof/Machine/Flags.lean ====
section
/-! DEFINITION. The only status the block keeps is the response word (10_state.md R29): the error codes
(60_exceptions.md R191) and the fields of `RESP` (R192). The block has no flags. -/

namespace Sys2Proof.Machine

/-- The two bits of `LC` (10_state.md R24). -/
def Lifecycle.code : Lifecycle → BitVec 2
  | .uninit => 0
  | .ready => 1
  | .closed => 2

/-- The outcomes that `RESP.CODE` names (60_exceptions.md R191). -/
inductive ErrorCode where
  | ok
  | busUnavailable
  | configurationError
  | shortWrite
  | invalidRow
  | deviceInitError
  | outOfRange
  | badState
  | illegalCommand
  deriving DecidableEq, Repr

/-- The number of a code (R191). -/
def ErrorCode.number : ErrorCode → BitVec 4
  | .ok => 0
  | .busUnavailable => 1
  | .configurationError => 2
  | .shortWrite => 3
  | .invalidRow => 4
  | .deviceInitError => 5
  | .outOfRange => 6
  | .badState => 7
  | .illegalCommand => 8

/-- `CFG_PARAM` of a rejected configuration (40_bus_transport.md R82). -/
def cfgParamCode : CfgParam → BitVec 2
  | .mode => 0
  | .wordSize => 1
  | .clock => 2

/-- The fields of `RESP` that an outcome names, besides `CODE` and `LC`; "Every field not named by the outcome is 0"
(R192). -/
structure Fields where
  cause    : ErrorCode := .ok
  step     : Nat := 0
  accepted : Nat := 0
  pixel    : Bool := false
  logged   : Bool := false
  cfgParam : BitVec 2 := 0
  failReg  : Byte := 0
  deriving DecidableEq, Repr

/-- A field of `RESP` at its place: its bit 0 at bit `low`. -/
def fieldAt (low : Nat) {n : Nat} (v : BitVec n) : Word := v.setWidth 32 <<< low

/-- The response word (R192): every field at the bits the table gives it, `RESP[23:22]` always 0. -/
def responseWord (code : ErrorCode) (lc : Lifecycle) (f : Fields) : Word :=
  fieldAt 0 code.number ||| fieldAt 4 f.cause.number ||| fieldAt 8 (BitVec.ofNat 4 f.step)
    ||| fieldAt 12 (BitVec.ofNat 4 f.accepted) ||| fieldAt 16 (BitVec.ofBool f.pixel) ||| fieldAt 17 lc.code
    ||| fieldAt 19 (BitVec.ofBool f.logged) ||| fieldAt 20 f.cfgParam ||| fieldAt 24 f.failReg

end Sys2Proof.Machine
end

