-- ==== Sys2Proof/Machine/Ops.lean ====
section
/-! DEFINITION. The shared operations: bus requests and their answers (40_bus_transport.md), sending frames (R88), ending a
command with a response or an error (60_exceptions.md R193, R194), and the command port and reset
(30_encoding.md R61, 70_reset_and_hazards.md R220). -/

namespace Sys2Proof.Machine

/-! ## The bus port -/

/-- The transport's answer to the k-th request from here on: as listed, or free beyond the list (40_bus_transport.md R80,
log 3). -/
def State.answer (s : State) (k : Nat) : Answer :=
  match s.answers[k]? with
  | some a => a
  | none => Config.transportAnswer (s.trace.length + k)

/-- A request put on the bus: the trace records it, and the transport's next answer is used up. -/
def State.issue (s : State) (req : BusRequest) : State :=
  { s with trace := s.trace ++ [req], answers := s.answers.tail }

/-- How an operation that uses the bus ends. -/
inductive Flow (α : Type) where
  /-- every request was answered -/
  | done (result : α) (s : State)
  /-- some request is never answered: the block waits for ever (40_bus_transport.md R89) -/
  | hung (s : State)

/-- `Bus(req)` (40_bus_transport.md R80): one request, its one answer. With no answer the block keeps `BUSY = 1` and goes
no further (R89). -/
def bus (req : BusRequest) (s : State) : Flow Reply :=
  match s.answer 0 with
  | .given r => .done r (s.issue req)
  | .never => .hung { s.issue req with busy := true }

/-- `OPEN` (40_bus_transport.md R81): whether it answered `OK`; on `OK`, `BUS_OPEN <- 1`. -/
def openBus (s : State) : Flow Bool :=
  match bus .openBus s with
  | .done r t => .done r.opens (if r.opens then { t with busOpen := true } else t)
  | .hung t => .hung t

/-- `CONFIGURE(P_SPI_MODE, P_WORD_BITS, P_CLOCK_HZ)` (40_bus_transport.md R82): the parameter rejected, if any. -/
def configureBus (s : State) : Flow (Option CfgParam) :=
  match bus (.configure Config.spiMode Config.wordBits s.params.clockHz) s with
  | .done r t => .done r.rejects t
  | .hung t => .hung t

/-- `CLOSE` (40_bus_transport.md R85): `BUS_OPEN <- 0` when it is issued, whatever the answer. -/
def closeBus (s : State) : Flow Unit :=
  match bus .closeBus { s with busOpen := false } with
  | .done _ t => .done () t
  | .hung t => .hung t

/-- The chips after a frame that was not accepted whole (40_bus_transport.md R84). -/
def State.spoilChips (s : State) : State := { s with chips := s.chips.spoil }

/-- The chips after a frame accepted whole (41_encoder.md R107). -/
def State.latchFrame (s : State) (f : Frame) : State := { s with chips := s.chips.latch s.params f }

/-- What `SendFrame` returns (40_bus_transport.md R88). -/
inductive SendResult where
  | done
  | short (accepted : Nat)
  deriving DecidableEq, Repr

/-- `SendFrame(F)` (40_bus_transport.md R88): exactly one `WRITE`. A `WRITE` that is never answered also leaves the chips
unknown (log 4). -/
def sendFrame (f : Frame) (s : State) : Flow SendResult :=
  match bus (.write f) s with
  | .done r t => if r.accepts = 8 then .done .done (t.latchFrame f) else .done (.short r.accepts.val) t.spoilChips
  | .hung t => .hung t.spoilChips

/-- The frame of a sequence that was short: its position, the count accepted, its register byte. -/
structure ShortAt where
  step     : Nat
  accepted : Nat
  reg      : Byte
  deriving DecidableEq, Repr

/-- Frames sent one after another, the first numbered `k`, up to the first short write: "always treated as fatal to the
in-progress operation" (40_bus_transport.md R83). -/
def sendFrames : List Frame → Nat → State → Flow (Option ShortAt)
  | [], _, s => .done none s
  | f :: fs, k, s =>
    match sendFrame f s with
    | .done .done t => sendFrames fs (k + 1) t
    | .done (.short n) t => .done (some { step := k, accepted := n, reg := f[0] }) t
    | .hung t => .hung t

/-! ## Ending a command -/

/-- The command ends with a response word: it goes to `RESP` and to the response channel, and `BUSY <- 0`
(30_encoding.md R60, R61; 10_state.md R26). -/
def State.endWith (s : State) (code : ErrorCode) (f : Fields) : State :=
  { s with
    resp := responseWord code s.lc f
    responses := s.responses ++ [responseWord code s.lc f]
    busy := false }

/-- `respond(fields)` (00_scope.md R11, 60_exceptions.md R193): the command completes with `CODE = OK`. -/
def respond (f : Fields) (s : State) : State := s.endWith .ok f

/-- `raise <Error>(fields)` (00_scope.md R11, 60_exceptions.md R194): the block's one way of taking an error. Nothing done
before is undone, and after it the block is idle; there is nothing to return from (R198). -/
def raise (e : ErrorCode) (f : Fields) (s : State) : State := s.endWith e f

/-- The fields that report a short write (60_exceptions.md R192). -/
def ShortAt.fields (f : ShortAt) : Fields := { step := f.step, accepted := f.accepted, failReg := f.reg }

/-! ## The command port and reset -/

/-- The block accepts the command at the head of what the host offers: `BUSY <- 1` (30_encoding.md R61). -/
def State.accept (s : State) (rest : List HostEvent) : State := { s with inbox := rest, busy := true }

/-- Reset (70_reset_and_hazards.md R220): every element of the state vector to its reset value, no bus request, no
response; the chips keep what they held (R221). -/
def State.onReset (s : State) (rest : List HostEvent) : State :=
  { s with
    fb := Vector.replicate 8 0, lc := .uninit, busOpen := false, resp := 0, busy := false, inbox := rest }

/-- An `ILLEGAL` command word (30_encoding.md R67): `raise IllegalCommand()`. -/
def illegalCommand (s : State) : State := raise .illegalCommand {} s

/-- What the block does next. -/
inductive PortAction where
  /-- nothing: no command is offered, or the block is busy and takes none -/
  | stay
  /-- reset is asserted; what the host still offers afterwards -/
  | reset (rest : List HostEvent)
  /-- an `ILLEGAL` command word is accepted -/
  | illegal (rest : List HostEvent)
  /-- a command is accepted -/
  | run (i : Instr) (rest : List HostEvent)
  deriving DecidableEq, Repr

/-- What the command port gives the block next. Idle, it takes what the host offers in order. Busy, it takes no command
(30_encoding.md R61): only a reset gets through, and commands the host is waiting to offer stay offered (log 5). -/
def State.portAction (s : State) : PortAction :=
  if s.busy then
    if HostEvent.reset ∈ s.inbox then .reset (s.inbox.erase .reset) else .stay
  else
    match s.inbox with
    | [] => .stay
    | .reset :: rest => .reset rest
    | .command cmd arg :: rest =>
      match decode cmd arg with
      | .ok i => .run i rest
      | .error _ => .illegal rest

/-- The state with one command offered first on an idle port. -/
def State.offer (s : State) (cmd arg : Word) : State :=
  { s with inbox := .command cmd arg :: s.inbox, busy := false }

end Sys2Proof.Machine
end

