-- ==== Sys2Proof/Machine/Encoder.lean ====
section
/-! DEFINITION. The raw encoder commands BCAST and ROW (41_encoder.md section 3). -/

namespace Sys2Proof.Machine

/-- One frame sent and reported, the shared end of BCAST and ROW (41_encoder.md R103, R104). -/
def sendAndRespond (f : Frame) (s : State) : State :=
  match sendFrame f s with
  | .done .done t => respond {} t
  | .done (.short n) t => raise .shortWrite { accepted := n, failReg := f[0] } t
  | .hung t => t

/-- `BCAST reg, data` (41_encoder.md R103). -/
def execBcast (reg data : Byte) (s : State) : Host.Outcome State Fault Refusal :=
  .next (if s.lc = .ready then sendAndRespond (encodeBroadcast reg data) s else raise .badState {} s)

/-- `ROW r, d0, d1, d2, d3` (41_encoder.md R104): the lifecycle state is checked before the row selector
(60_exceptions.md R195). -/
def execRow (rowSel : Byte) (devData : Vector Byte 4) (s : State) : Host.Outcome State Fault Refusal :=
  .next (if s.lc = .ready then
      match encodeRow s.params.chainOrder rowSel.toNat devData with
      | some f => sendAndRespond f s
      | none => raise .invalidRow {} s
    else raise .badState {} s)

end Sys2Proof.Machine
end

