-- ==== Sys2Proof/Machine/Framebuffer.lean ====
section
/-! DEFINITION. The framebuffer commands CLEAR, SETPX, GETPX (42_framebuffer.md section 2). They never touch the bus and are
accepted in every lifecycle state. -/

namespace Sys2Proof.Machine

/-- `CLEAR` (42_framebuffer.md R121). -/
def execClear (s : State) : Host.Outcome State Fault Refusal :=
  .next (respond {} s.clearFb)

/-- `SETPX x, y, on` (42_framebuffer.md R122): "out-of-range (x,y) is silently ignored (no error)". -/
def execSetpx (x y : Int) (on : Bool) (s : State) : Host.Outcome State Fault Refusal :=
  .next (match cellOf x y with
    | some (column, row) => respond {} (s.setCell column row on)
    | none => respond {} s)

/-- `GETPX x, y` (42_framebuffer.md R123). -/
def execGetpx (x y : Int) (s : State) : Host.Outcome State Fault Refusal :=
  .next (match cellOf x y with
    | some (column, row) => respond { pixel := s.cell column row } s
    | none => raise .outOfRange {} s)

end Sys2Proof.Machine
end

