-- ==== Sys2Proof/Machine/Flush.lean ====
section
/-! DEFINITION. The flush procedure and the FLUSH command (43_flush.md). -/

namespace Sys2Proof.Machine

/-- `DoFlush()` (43_flush.md R140): the eight row frames, up to the first short write. When all were accepted the flush is
complete and the row registers are known again (70_reset_and_hazards.md R228). -/
def doFlush (s : State) : Flow (Option ShortAt) :=
  match sendFrames (flushFrames s.params s.fb) 0 s with
  | .done none t => .done none { t with chips := t.chips.settleRows t.params (flushFrames t.params t.fb) }
  | .done (some f) t => .done (some f) t
  | .hung t => .hung t

/-- `FLUSH` (43_flush.md R142). -/
def execFlush (s : State) : Host.Outcome State Fault Refusal :=
  .next (if s.lc = .ready then
      match doFlush s with
      | .done none t => respond {} t
      | .done (some f) t => raise .shortWrite f.fields t
      | .hung t => t
    else raise .badState {} s)

end Sys2Proof.Machine
end

