-- ==== Sys2Proof/Machine/Lifecycle.lean ====
section
/-! DEFINITION. The lifecycle commands INIT and SHUTDOWN (44_lifecycle.md section 3). -/

namespace Sys2Proof.Machine

/-- A failed INIT after OPEN succeeded: `CLOSE`, then the error (44_lifecycle.md R163, decision D12). -/
def abandonInit (e : ErrorCode) (f : Fields) (s : State) : State :=
  match closeBus s with
  | .done _ t => raise e f t
  | .hung t => t

/-- INIT's 13 frames and its end (44_lifecycle.md R163), the bus being open and configured. -/
def sendInitFrames (intens : Int) (s : State) : State :=
  match sendFrames (initFrames s.params intens) 0 s with
  | .done none t =>
    respond {} { t with lc := .ready, chips := t.chips.settleControl t.params (initFrames t.params intens) }
  | .done (some f) t => abandonInit .deviceInitError { f.fields with cause := .shortWrite } t
  | .hung t => t

/-- INIT from its `OPEN` on (44_lifecycle.md R163). -/
def bringUp (intens : Int) (s : State) : State :=
  match openBus s with
  | .hung t => t
  | .done false t => raise .busUnavailable {} t
  | .done true t =>
    match configureBus t with
    | .hung u => u
    | .done (some p) u => abandonInit .configurationError { cfgParam := cfgParamCode p } u
    | .done none u => sendInitFrames intens u

/-- `INIT i` (44_lifecycle.md R163): the framebuffer is cleared right after the lifecycle check, whatever follows
(decision D11). -/
def execInit (intens : Int) (s : State) : Host.Outcome State Fault Refusal :=
  .next (if s.lc = .uninit then bringUp intens s.clearFb else raise .badState {} s)

/-- SHUTDOWN's `CLOSE` and its end (44_lifecycle.md R165). A short write in the blanking flush is reported in the fields of
an `OK` response (60_exceptions.md R196). -/
def closeDown (failure : Option ShortAt) (s : State) : State :=
  match closeBus s with
  | .hung t => t
  | .done _ t =>
    match failure with
    | none => respond {} { t with lc := .closed }
    | some f => respond { f.fields with logged := true, cause := .shortWrite } { t with lc := .closed }

/-- `SHUTDOWN` (44_lifecycle.md R165). -/
def execShutdown (s : State) : Host.Outcome State Fault Refusal :=
  .next (if s.lc = .ready then
      match doFlush s.clearFb with
      | .done failure t => closeDown failure t
      | .hung t => t
    else raise .badState {} s)

end Sys2Proof.Machine
end

