-- ==== Sys2Proof/Machine/Dispatch.lean ====
section
/-! DEFINITION. One arm per command of spec/opcode_table.json (30_encoding.md R65). -/

namespace Sys2Proof.Machine

def exec (i : Instr) (s : State) : Host.Outcome State Fault Refusal :=
  match i with
  | .init intens => Sys2Proof.Machine.execInit intens s
  | .setpx x y on => Sys2Proof.Machine.execSetpx x y on s
  | .clear => Sys2Proof.Machine.execClear s
  | .flush => Sys2Proof.Machine.execFlush s
  | .shutdown => Sys2Proof.Machine.execShutdown s
  | .getpx x y => Sys2Proof.Machine.execGetpx x y s
  | .bcast reg data => Sys2Proof.Machine.execBcast reg data s
  | .row rowSel devData => Sys2Proof.Machine.execRow rowSel devData s

end Sys2Proof.Machine
end

