-- ==== Sys2Proof/Machine/Step.lean ====
section
/-! DEFINITION. One step: the next thing that reaches the block, a whole command being one step (10_state.md R28, log 1). -/

namespace Sys2Proof.Machine

/-- One step of the machine. A command is accepted and carried out to its response, or to the request that is never
answered; a reset sets the reset values; with nothing to take, the block stays as it is. -/
def step (s : State) : Host.Outcome State Fault Refusal :=
  match s.portAction with
  | .stay => .next s
  | .reset rest => .next (s.onReset rest)
  | .illegal rest => .next (illegalCommand (s.accept rest))
  | .run i rest => exec i (s.accept rest)

/-- The state with the command of bits `w` offered next: `CMD` is bits 31..0, `ARG` bits 63..32, bits at `nbits` and above
being 0 (log 2: how a program comes to run). -/
def State.withFetchWord (s : State) (nbits w : Nat) : State :=
  s.offer (BitVec.ofNat 32 (w % 2 ^ nbits)) (BitVec.ofNat 32 (w % 2 ^ nbits / 2 ^ 32))

end Sys2Proof.Machine
end

