-- ==== Sys2Proof/Machine/Assembler.lean ====
section
/-! DEFINITION. The assembler syntax of 30_encoding.md R69, read from a line of characters: a mnemonic, then operands
separated by commas, numbers "decimal (optionally negative) or `0x` hexadecimal". Spaces around them are skipped
(DESIGN CHOICE, log 16). -/

namespace Sys2Proof.Machine

/-- The value of a digit, if it is one in this base. -/
def digitValue (base : Nat) (c : Char) : Option Nat :=
  let v :=
    if '0' ≤ c ∧ c ≤ '9' then c.toNat - '0'.toNat
    else if 'a' ≤ c ∧ c ≤ 'f' then c.toNat - 'a'.toNat + 10
    else if 'A' ≤ c ∧ c ≤ 'F' then c.toNat - 'A'.toNat + 10
    else base
  if v < base then some v else none

/-- Digits read after a value already read. -/
def readDigits (base : Nat) : List Char → Nat → Option Nat
  | [], acc => some acc
  | c :: cs, acc =>
    match digitValue base c with
    | some v => readDigits base cs (acc * base + v)
    | none => none

/-- A number without sign: at least one digit. -/
def readNatural (base : Nat) (cs : List Char) : Option Nat :=
  if cs.isEmpty then none else readDigits base cs 0

/-- A number (R69). -/
def readNumber : List Char → Option Int
  | '-' :: cs => (readNatural 10 cs).map (fun n => -(n : Int))
  | '0' :: 'x' :: cs => (readNatural 16 cs).map (fun n => (n : Int))
  | cs => (readNatural 10 cs).map (fun n => (n : Int))

/-- The text without the spaces at its ends. -/
def trimSpaces (cs : List Char) : List Char :=
  ((cs.dropWhile (· == ' ')).reverse.dropWhile (· == ' ')).reverse

/-- The parts between commas. -/
def commaParts : List Char → List (List Char)
  | [] => [[]]
  | c :: cs =>
    if c = ',' then [] :: commaParts cs
    else
      match commaParts cs with
      | p :: ps => (c :: p) :: ps
      | [] => [[c]]

/-- An operand in 0..255; any other value is refused (R69). -/
def asByte (v : Int) : Option Byte :=
  if 0 ≤ v ∧ v ≤ 255 then some (BitVec.ofInt 8 v) else none

/-- The operand `on`, in {0, 1} (R69). -/
def asBit (v : Int) : Option Bool :=
  if v = 0 then some false else if v = 1 then some true else none

/-- The command that a mnemonic and its operands stand for (R69). -/
def commandOf (mnemonic : List Char) (args : List Int) : Option Instr :=
  if mnemonic = Op.init.mnemonic.toList then
    match args with
    | [i] => some (.init i)
    | _ => none
  else if mnemonic = Op.setpx.mnemonic.toList then
    match args with
    | [x, y, on] => (asBit on).map (fun b => .setpx x y b)
    | _ => none
  else if mnemonic = Op.clear.mnemonic.toList then
    if args.isEmpty then some .clear else none
  else if mnemonic = Op.flush.mnemonic.toList then
    if args.isEmpty then some .flush else none
  else if mnemonic = Op.shutdown.mnemonic.toList then
    if args.isEmpty then some .shutdown else none
  else if mnemonic = Op.getpx.mnemonic.toList then
    match args with
    | [x, y] => some (.getpx x y)
    | _ => none
  else if mnemonic = Op.bcast.mnemonic.toList then
    match args with
    | [reg, data] => do return .bcast (← asByte reg) (← asByte data)
    | _ => none
  else if mnemonic = Op.row.mnemonic.toList then
    match args with
    | [r, d0, d1, d2, d3] => do
      return .row (← asByte r) #v[← asByte d0, ← asByte d1, ← asByte d2, ← asByte d3]
    | _ => none
  else none

/-- A line of the syntax of R69. -/
def parseCommand (line : List Char) : Option Instr :=
  let text := trimSpaces line
  let rest := trimSpaces (text.dropWhile (· != ' '))
  let args := if rest.isEmpty then some [] else (commaParts rest).mapM (fun p => readNumber (trimSpaces p))
  match args with
  | some vs => commandOf (text.takeWhile (· != ' ')) vs
  | none => none

/-- A line of the syntax of R69, assembled: "an assembler refuses any other value". -/
def assembleLine (line : List Char) : Option (Word × Word) :=
  match parseCommand line with
  | some i => assemble i
  | none => none

end Sys2Proof.Machine
end

