-- ==== Sys2Proof/Safety.lean ====
section
/-! DEFINITION. What claims are stated with: the invariant of the machine, the transport's answers a command meets, and
what a run of requests leaves. -/

namespace Sys2Proof.Machine

/-- `RESP.CODE` (60_exceptions.md R192). -/
def respCode (w : Word) : BitVec 4 := w.extractLsb' 0 4
/-- `RESP.CAUSE` (R192). -/
def respCause (w : Word) : BitVec 4 := w.extractLsb' 4 4
/-- `RESP.STEP` (R192). -/
def respStep (w : Word) : BitVec 4 := w.extractLsb' 8 4
/-- `RESP.ACCEPTED` (R192). -/
def respAccepted (w : Word) : BitVec 4 := w.extractLsb' 12 4
/-- `RESP.PIXEL` (R192). -/
def respPixel (w : Word) : Bool := w.getLsbD 16
/-- `RESP.LC` (R192). -/
def respLc (w : Word) : BitVec 2 := w.extractLsb' 17 2
/-- `RESP.LOGGED` (R192). -/
def respLogged (w : Word) : Bool := w.getLsbD 19
/-- `RESP.CFG_PARAM` (R192). -/
def respCfgParam (w : Word) : BitVec 2 := w.extractLsb' 20 2
/-- `RESP[23:22]`, "always 0" (R192). -/
def respReserved (w : Word) : BitVec 2 := w.extractLsb' 22 2
/-- `RESP.FAIL_REG` (R192). -/
def respFailReg (w : Word) : Byte := w.extractLsb' 24 8

/-- The invariant of the machine. Every step keeps it and reset has it. -/
structure State.Inv (s : State) : Prop where
  /-- "Whenever `BUSY = 0`, `BUS_OPEN = 1` exactly when `LC = READY`" (10_state.md R25) -/
  busOpen_iff_ready : s.busy = false → (s.busOpen = true ↔ s.lc = .ready)
  /-- `RESP.LC` is the lifecycle state (60_exceptions.md R192, 10_state.md R26) -/
  resp_lc : respLc s.resp = s.lc.code
  /-- codes 9..15 are "never produced" (60_exceptions.md R191) -/
  resp_code : (respCode s.resp).toNat ≤ 8
  /-- `RESP[23:22]` is "always 0" (60_exceptions.md R192) -/
  resp_reserved : respReserved s.resp = 0
  /-- `P_CLOCK_HZ` is positive (00_scope.md R6) -/
  params_wf : s.params.wf
  /-- the chip registers' cells are in canonical form -/
  chips_wf : Memory.wf s.chips.known
  /-- four devices of 256 registers (20_memory.md R41) -/
  chips_bound : ∀ c ∈ s.chips.known, c.1 < 1024

/-- The count that an answer gives to a `WRITE` (40_bus_transport.md R80); none where there is no answer. -/
def acceptedCount : Answer → Option (Fin 9)
  | .given r => some r.accepts
  | .never => none

/-- The transport answers the k-th request from here, and to a `WRITE` it answers the count `n`. -/
abbrev State.Accepts (s : State) (k : Nat) (n : Fin 9) : Prop := acceptedCount (s.answer k) = some n

/-- The transport accepts whole the `n` writes that are requests `k`, `k+1`, ... from here. -/
abbrev State.AcceptsAll (s : State) (k n : Nat) : Prop := ∀ j < n, s.Accepts (k + j) 8

/-- The transport answers the k-th request from here, whatever it answers. -/
abbrev State.Answers (s : State) (k : Nat) : Prop := s.answer k ≠ .never

/-- The state with these requests put on the bus and their answers used up, nothing else changed. -/
def State.afterRequests (s : State) (reqs : List BusRequest) : State :=
  { s with trace := s.trace ++ reqs, answers := s.answers.drop reqs.length }

/-- `s` with a command ended: the response word in `RESP` and on the response channel, `BUSY = 0`
(30_encoding.md R60, R61). -/
def State.answered (s : State) (w : Word) : State :=
  { s with resp := w, responses := s.responses ++ [w], busy := false }

/-- The fields that the block's own behaviour is about: everything but what the chips hold. -/
def State.withChips (s : State) (c : Chips) : State := { s with chips := c }

/-- A frame the block may put on the bus: a broadcast frame, or a row frame of a valid row (30_encoding.md R73). -/
def FrameOfBlock (p : Params) (f : Frame) : Prop :=
  (∃ reg data, f = encodeBroadcast reg data) ∨ ∃ r D, encodeRow p.chainOrder r D = some f

/-- The five control register addresses are distinct and none is a row register's, as in the defaults of 00_scope.md R6;
R6 itself does not ask it of other settings. -/
abbrev DistinctControl (p : Params) : Prop :=
  [p.regDisplayTest, p.regDecodeMode, p.regIntensity, p.regScanLimit, p.regShutdown].Pairwise (· ≠ ·) ∧
  ∀ a ∈ [p.regDisplayTest, p.regDecodeMode, p.regIntensity, p.regScanLimit, p.regShutdown], ¬ (1 ≤ a.toNat ∧ a.toNat ≤ 8)

end Sys2Proof.Machine
end

