-- ==== Sys2Proof/Certificates/Slice0/Obligations.lean ====
section
/-! DEFINITION. The statements for the provers, each from a rule of spec/. -/

namespace Sys2Proof.Machine

/-! ## Shared wording -/

/-- A command word that R67 calls illegal: a reserved `OPC`, or a reserved bit of its format set (30_encoding.md R62). -/
def ReservedWord (cmd : Word) : Prop :=
  (opc cmd = 0 ∨ 9 ≤ (opc cmd).toNat) ∨
  ((opc cmd = 1 ∨ opc cmd = 8) ∧ cmd.extractLsb' 8 20 ≠ 0) ∨
  (opc cmd = 2 ∧ cmd.extractLsb' 17 11 ≠ 0) ∨
  ((opc cmd = 3 ∨ opc cmd = 4 ∨ opc cmd = 5) ∧ cmd.extractLsb' 0 28 ≠ 0) ∨
  ((opc cmd = 6 ∨ opc cmd = 7) ∧ cmd.extractLsb' 16 12 ≠ 0)

/-- The commands that the lifecycle state does not admit (44_lifecycle.md R167). -/
def NotAdmitted (i : Instr) (lc : Lifecycle) : Prop :=
  (i.op = .init ∧ lc ≠ .uninit) ∨ (i.op ∈ [Op.flush, .shutdown, .bcast, .row] ∧ lc ≠ .ready)

end Sys2Proof.Machine

open Sys2Proof Sys2Proof.Machine

/-! ## Encoding -/

/-- Every command that the assembler accepts decodes back to itself, with every operand (30_encoding.md R63, R65, R69). -/
def Obligations.EncodedCommandsDecode : Prop :=
  ∀ i : Instr, i.WellFormed → decode (encode i).1 (encode i).2 = .ok i

/-- Every command word pair that decodes is the encoding of what it decodes to, but for an ignored `ARG`
(30_encoding.md R62 to R65). -/
def Obligations.DecodedWordsReencode : Prop :=
  ∀ cmd arg i, decode cmd arg = .ok i →
    i.WellFormed ∧ (encode i).1 = cmd ∧ (i.op = .row → (encode i).2 = arg)

/-- The opcode map of R65, and that "Each valid command word matches exactly one row". -/
def Obligations.OpcodeMapSelectsOneRow : Prop :=
  (opcodeTable.map fun r => (r.op.mnemonic, r.pattern, r.mask)) =
    [("INIT", 0x10000000, 0xFFFFFF00), ("SETPX", 0x20000000, 0xFFFE0000), ("CLEAR", 0x30000000, 0xFFFFFFFF),
     ("FLUSH", 0x40000000, 0xFFFFFFFF), ("SHUTDOWN", 0x50000000, 0xFFFFFFFF), ("GETPX", 0x60000000, 0xFFFF0000),
     ("BCAST", 0x70000000, 0xFFFF0000), ("ROW", 0x80000000, 0xFFFFFF00)] ∧
  ∀ cmd arg i, decode cmd arg = .ok i →
    ∃ r ∈ opcodeTable, r.op = i.op ∧ ∀ r' ∈ opcodeTable, (cmd &&& r'.mask = r'.pattern ↔ r' = r)

/-- A command word is refused exactly when its opcode is reserved or a reserved bit of its format is set
(30_encoding.md R62, R66, R67). -/
def Obligations.ReservedWordsAreRefused : Prop :=
  ∀ cmd arg, (∃ e, decode cmd arg = .error e) ↔ ReservedWord cmd

/-- The operands are read from the fields as R63 says: `INTENS`, `X`, `Y` signed, the rest unsigned. -/
def Obligations.OperandsAreRead : Prop :=
  ∀ cmd arg i, decode cmd arg = .ok i →
    match i with
    | .init v => v = (cmd.extractLsb' 0 8).toInt
    | .setpx x y on => x = (cmd.extractLsb' 0 8).toInt ∧ y = (cmd.extractLsb' 8 8).toInt ∧ on = cmd.getLsbD 16
    | .getpx x y => x = (cmd.extractLsb' 0 8).toInt ∧ y = (cmd.extractLsb' 8 8).toInt
    | .bcast reg data => reg = cmd.extractLsb' 8 8 ∧ data = cmd.extractLsb' 0 8
    | .row r D => r = cmd.extractLsb' 0 8 ∧ ∀ d : Fin 4, D[d] = arg.extractLsb' (8 * d.val) 8
    | .clear => True
    | .flush => True
    | .shutdown => True

/-- R64: `ARG` carries data only for ROW; "For every other opcode `ARG` is ignored". -/
def Obligations.ArgOnlyMattersToRow : Prop :=
  (∀ cmd a b, opc cmd ≠ 8 → decode cmd a = decode cmd b) ∧
  (∀ cmd arg r D, decode cmd arg = .ok (.row r D) → ∀ d : Fin 4, D[d] = arg.extractLsb' (8 * d.val) 8)

/-- Command words written out in 95_test_vectors.md sections 2.1 and 2.2 decode as that file says. -/
def Obligations.SpecWordsDecode : Prop :=
  decode 0x100000FF 0 = .ok (.init (-1)) ∧
  decode 0x20010205 0 = .ok (.setpx 5 2 true) ∧
  decode 0x2001807F 0 = .ok (.setpx 127 (-128) true) ∧
  decode 0x30000000 0 = .ok .clear ∧
  decode 0x40000000 0 = .ok .flush ∧
  decode 0x50000000 0 = .ok .shutdown ∧
  decode 0x60000205 0 = .ok (.getpx 5 2) ∧
  decode 0x7000FF80 0 = .ok (.bcast 0xFF 0x80) ∧
  decode 0x80000003 0xDDCCBBAA = .ok (.row 3 #v[0xAA, 0xBB, 0xCC, 0xDD]) ∧
  decode 0x60010205 0 = .error .reservedBit ∧
  decode 0x90000000 0 = .error .reservedOpcode

/-! ## Frames and packing -/

/-- R102: the slot of a device under either chain order, "a bijection on 0..N-1 in both settings". -/
def Obligations.SlotOfDevice : Prop :=
  (∀ d : Fin 4, (slot .farthestFirst d).val = 4 - 1 - d.val) ∧
  (∀ d : Fin 4, slot .nearestFirst d = d) ∧
  (∀ o, Function.Bijective (slot o))

/-- R100: a broadcast frame carries the pair in every slot, for every register and data byte. -/
def Obligations.BroadcastFrameRepeatsPair : Prop :=
  ∀ (reg data : Byte) (s : Fin 4),
    (encodeBroadcast reg data)[regOffset s] = reg ∧ (encodeBroadcast reg data)[dataOffset s] = data

/-- R101: a row frame puts `r` and device d's byte at slot(d); `InvalidRow` outside [1,8], with no frame. -/
def Obligations.RowFramePlacesDeviceData : Prop :=
  ∀ (o : ChainOrder) (r : Int) (D : Vector Byte 4),
    ((r < 1 ∨ r > 8) → encodeRow o r D = none) ∧
    (1 ≤ r → r ≤ 8 → ∃ f, encodeRow o r D = some f ∧
      ∀ d : Fin 4, f[regOffset (slot o d)].toNat = r ∧ f[dataOffset (slot o d)] = D[d])

/-- R105: farthest first, the data bytes read in wire order are the device data reversed. -/
def Obligations.RowFrameReversesDevices : Prop :=
  ∀ (r : Int) (D : Vector Byte 4), 1 ≤ r → r ≤ 8 → ∃ f, encodeRow .farthestFirst r D = some f ∧
    (∀ s : Fin 4, f[regOffset s].toNat = r ∧ f[dataOffset s] = D[4 - 1 - s.val]) ∧
    [f[1], f[3], f[5], f[7]].reverse = D.toList

/-- R106: a broadcast to a row register is the row frame with equal data, under either chain order. -/
def Obligations.BroadcastEqualsUniformRow : Prop :=
  ∀ (o : ChainOrder) (r v : Byte), 1 ≤ r.toNat → r.toNat ≤ 8 →
    encodeRow o r.toNat #v[v, v, v, v] = some (encodeBroadcast r v)

/-- R126: the packed byte is the device's 8 columns, bit-reversed under MSB_LEFT and as they are under LSB_LEFT. -/
def Obligations.PackedByteIsSlice : Prop :=
  ∀ (w : Word) (d : Fin 4),
    pack .msbLeft w d = (w.extractLsb' (8 * d.val) 8).reverse ∧ pack .lsbLeft w d = w.extractLsb' (8 * d.val) 8

/-- R127: bit b of `pack(y, d)` is the cell (8d + col(b), y), and a framebuffer with only the cell (x, y) on gives
`1 << (7 - x mod 8)` for device x div 8 of row y under MSB_LEFT, and 0x00 for every other device and every other row. -/
def Obligations.PackedBitIsCell : Prop :=
  (∀ (s : State) (q : BitPolarity) (y : Fin 8) (d : Fin 4) (b : Fin 8),
    (pack q (s.row y) d).getLsbD b.val = s.cell ⟨8 * d.val + (colOf q b).val, by omega⟩ y) ∧
  (∀ (s : State) (x : Fin 32) (y : Fin 8), (∀ x' y', s.cell x' y' = true ↔ x' = x ∧ y' = y) →
    ∀ (y' : Fin 8) (d : Fin 4), pack .msbLeft (s.row y') d =
      if y' = y ∧ d.val = x.val / 8 then 1#8 <<< (7 - x.val % 8) else 0)

/-- R140, R141, R143: the frames of a flush are eight, row y's made by `encodeRow(y+1, packRow(y))`, which never raises
`InvalidRow`. -/
def Obligations.FlushFramesAreEncodedRows : Prop :=
  ∀ (p : Params) (fb : Vector Word 8), (flushFrames p fb).length = 8 ∧
    ∀ y : Fin 8, (flushFrames p fb)[y.val]? = encodeRow p.chainOrder (y.val + 1) (packRow p.bitPolarity fb[y])

/-- R160, R162: the clamp, and the intensity byte it gives. -/
def Obligations.IntensityIsClamped : Prop :=
  ∀ v : Int, (v < 0 → clamp v = 0) ∧ (15 < v → clamp v = 15) ∧ (0 ≤ v → v ≤ 15 → clamp v = v) ∧
    ((intensityByte v).toNat : Int) = clamp v ∧ (intensityByte v).toNat ≤ 15

/-- R161: the 13 frames of INIT in their order, with the defaults of 00_scope.md R6 where a parameter is not a
register's. -/
def Obligations.InitFramesInOrder : Prop :=
  (∀ (p : Params) (v : Int), initFrames p v =
    [encodeBroadcast p.regDisplayTest p.valDisplayTestOff, encodeBroadcast p.regDecodeMode p.valNoDecode,
     encodeBroadcast p.regScanLimit p.valScanAll8, encodeBroadcast p.regIntensity (intensityByte v),
     encodeBroadcast p.regShutdown p.valNormalOp,
     encodeBroadcast 1 0, encodeBroadcast 2 0, encodeBroadcast 3 0, encodeBroadcast 4 0,
     encodeBroadcast 5 0, encodeBroadcast 6 0, encodeBroadcast 7 0, encodeBroadcast 8 0]) ∧
  (∀ v : Int, (initFrames Config.defaults v).take 5 =
    [encodeBroadcast 0x0F 0x00, encodeBroadcast 0x09 0x00, encodeBroadcast 0x0B 0x07,
     encodeBroadcast 0x0A (BitVec.ofInt 8 (clamp v)), encodeBroadcast 0x0C 0x01])

/-! ## The response word -/

/-- R191, R192: the numbers of the codes, and every field of the response word at the bits the table gives it. -/
def Obligations.ResponseWordLayout : Prop :=
  ([ErrorCode.ok, .busUnavailable, .configurationError, .shortWrite, .invalidRow, .deviceInitError, .outOfRange, .badState,
    .illegalCommand].map ErrorCode.number = [0, 1, 2, 3, 4, 5, 6, 7, 8]) ∧
  ∀ (e : ErrorCode) (lc : Lifecycle) (f : Fields),
    let w := responseWord e lc f
    w.extractLsb' 0 4 = e.number ∧ w.extractLsb' 4 4 = f.cause.number ∧ w.extractLsb' 8 4 = BitVec.ofNat 4 f.step ∧
    w.extractLsb' 12 4 = BitVec.ofNat 4 f.accepted ∧ w.getLsbD 16 = f.pixel ∧ w.extractLsb' 17 2 = lc.code ∧
    w.getLsbD 19 = f.logged ∧ w.extractLsb' 20 2 = f.cfgParam ∧ w.extractLsb' 22 2 = 0 ∧ w.extractLsb' 24 8 = f.failReg

/-- R193: a successful command with nothing to report answers 0x00000000, 0x00020000 or 0x00040000. -/
def Obligations.PlainSuccessWords : Prop :=
  responseWord .ok .uninit {} = 0x00000000 ∧ responseWord .ok .ready {} = 0x00020000 ∧
  responseWord .ok .closed {} = 0x00040000

/-! ## The command port and reset -/

/-- A step runs the decoded command: accepted from an idle port, it is `exec` of it, with the command taken from the port
and `BUSY = 1` (30_encoding.md R61, R66). -/
def Obligations.StepRunsDecodedCommand : Prop :=
  ∀ (s : State) (cmd arg : Word) (rest : List HostEvent) (i : Instr),
    s.busy = false → s.inbox = .command cmd arg :: rest → decode cmd arg = .ok i →
    step s = exec i { s with inbox := rest, busy := true }

/-- A step right after a command word is placed on the port runs the command that `decodeTableWord` reads from it
(log 2: how a program comes to run). -/
def Obligations.PlacedWordRunsNext : Prop :=
  ∀ (s : State) (nbits w : Nat) (i : Instr), decodeTableWord nbits w = some i →
    step (s.withFetchWord nbits w) = exec i { s with busy := true }

/-- R67: an illegal command word answers `IllegalCommand` with the current `LC`; nothing else changes but the port, and no
bus request is issued, whatever `ARG` holds. -/
def Obligations.IllegalWordAnswers : Prop :=
  ∀ (s : State) (cmd arg : Word) (rest : List HostEvent),
    s.busy = false → s.inbox = .command cmd arg :: rest → ReservedWord cmd →
    step s = .next (State.answered { s with inbox := rest } (responseWord .illegalCommand s.lc {}))

/-- R61, R89: while `BUSY = 1` a command offered is not taken; without a reset nothing changes, for ever. -/
def Obligations.BusyBlockTakesNoCommand : Prop :=
  ∀ s : State, s.busy = true → HostEvent.reset ∉ s.inbox → step s = .next s

/-- R220, R221: reset sets every element of the state vector to its reset value, in an idle block as in one that a request
never answered keeps busy; no bus request, no response, the chips untouched; and that state vector is the power-up one. -/
def Obligations.ResetSetsStateVector : Prop :=
  ∀ (s : State) (rest : List HostEvent), s.inbox = .reset :: rest →
    step s = .next { s with
      fb := Vector.replicate 8 0, lc := .uninit, busOpen := false, resp := 0x00000000, busy := false, inbox := rest } ∧
    State.reset.fb = Vector.replicate 8 0 ∧ State.reset.lc = .uninit ∧ State.reset.busOpen = false ∧
    State.reset.resp = 0x00000000 ∧ State.reset.busy = false

/-- The model's choice (log 5): a reset reaches a busy block past commands the host is still offering, and those commands
stay offered. -/
def Obligations.ResetPassesWaitingCommands : Prop :=
  ∀ (s : State) (waiting rest : List HostEvent), s.busy = true → HostEvent.reset ∉ waiting →
    s.inbox = waiting ++ .reset :: rest →
    step s = .next { s with
      fb := Vector.replicate 8 0, lc := .uninit, busOpen := false, resp := 0x00000000, busy := false,
      inbox := waiting ++ rest }

/-- R232: with `BUSY = 0` and no command to come, the run has ended: nothing changes. -/
def Obligations.IdleBlockStays : Prop :=
  ∀ s : State, s.busy = false → s.inbox = [] → step s = .next s

/-- No step stops the machine: every error is a response (R190), and a hang is no fault (R89). -/
def Obligations.EveryStepAnswersNext : Prop :=
  ∀ s : State, ∃ t, step s = .next t

/-! ## Framebuffer commands -/

/-- CLEAR (R121) turns every cell off in every lifecycle state, answers `OK`, and changes nothing else. -/
def Obligations.ClearTurnsCellsOff : Prop :=
  ∀ s : State, exec .clear s =
    .next (State.answered { s with fb := Vector.replicate 8 0 } (responseWord .ok s.lc {}))

/-- SETPX (R122) writes the addressed cell and no other, an out-of-range coordinate none, answers `OK` in every lifecycle
state, and changes nothing else. -/
def Obligations.SetPixelWritesOneCell : Prop :=
  ∀ (s : State) (x y : Int) (on : Bool), ∃ fb,
    exec (.setpx x y on) s = .next (State.answered { s with fb := fb } (responseWord .ok s.lc {})) ∧
    ∀ (x' : Fin 32) (y' : Fin 8), State.cell { s with fb := fb } x' y' =
      if (x'.val : Int) = x ∧ (y'.val : Int) = y then on else s.cell x' y'

/-- GETPX (R123) answers the addressed cell in range and `OutOfRange` with `PIXEL = 0` outside, in every lifecycle state,
and changes nothing but `RESP`. -/
def Obligations.GetPixelReadsOneCell : Prop :=
  (∀ (s : State) (x : Fin 32) (y : Fin 8), exec (.getpx x.val y.val) s =
    .next (s.answered (responseWord .ok s.lc { pixel := s.cell x y }))) ∧
  (∀ (s : State) (x y : Int), ¬ (0 ≤ x ∧ x < 32 ∧ 0 ≤ y ∧ y < 8) →
    exec (.getpx x y) s = .next (s.answered (responseWord .outOfRange s.lc {})))

/-! ## Raw encoder commands -/

/-- BCAST (R103) in READY: one `WRITE` of the broadcast frame; accepted whole, it answers `OK`; short, `ShortWrite` with
the count and the register. `FB`, `LC` and `BUS_OPEN` keep their values. -/
def Obligations.BroadcastSendsOneFrame : Prop :=
  ∀ (s : State) (reg data : Byte), s.lc = .ready →
    (s.Accepts 0 8 → ∃ c, exec (.bcast reg data) s =
      .next (State.answered { s with
          trace := s.trace ++ [.write #v[reg, data, reg, data, reg, data, reg, data]], answers := s.answers.drop 1,
          chips := c }
        0x00020000)) ∧
    (∀ n : Fin 9, n ≠ 8 → s.Accepts 0 n → ∃ c, exec (.bcast reg data) s =
      .next (State.answered { s with
          trace := s.trace ++ [.write #v[reg, data, reg, data, reg, data, reg, data]], answers := s.answers.drop 1,
          chips := c }
        (responseWord .shortWrite .ready { accepted := n.val, failReg := reg })))

/-- ROW (R104) in READY with a valid selector: one `WRITE` of the row frame, in the order the chain order gives; `OK` or
`ShortWrite`. `FB`, `LC` and `BUS_OPEN` keep their values. -/
def Obligations.RowSendsOneFrame : Prop :=
  ∀ (s : State) (r : Byte) (D : Vector Byte 4) (f : Frame), s.lc = .ready → 1 ≤ r.toNat → r.toNat ≤ 8 →
    (f = match s.params.chainOrder with
      | .farthestFirst => #v[r, D[3], r, D[2], r, D[1], r, D[0]]
      | .nearestFirst => #v[r, D[0], r, D[1], r, D[2], r, D[3]]) →
    (s.Accepts 0 8 → ∃ c, exec (.row r D) s =
      .next (State.answered { s with trace := s.trace ++ [.write f], answers := s.answers.drop 1, chips := c }
        0x00020000)) ∧
    (∀ n : Fin 9, n ≠ 8 → s.Accepts 0 n → ∃ c, exec (.row r D) s =
      .next (State.answered { s with trace := s.trace ++ [.write f], answers := s.answers.drop 1, chips := c }
        (responseWord .shortWrite .ready { accepted := n.val, failReg := r })))

/-- ROW (R104) in READY with a selector of 0 or 9..255: `InvalidRow`, no request, nothing else changed. -/
def Obligations.RowRefusesInvalidSelector : Prop :=
  ∀ (s : State) (r : Byte) (D : Vector Byte 4), s.lc = .ready → (r.toNat < 1 ∨ r.toNat > 8) →
    exec (.row r D) s = .next (s.answered 0x00020004)

/-! ## FLUSH -/

/-- FLUSH (R142) in READY, every write accepted whole: the eight row frames in order, `OK`, and `FB`, `LC` and `BUS_OPEN`
as before. -/
def Obligations.FlushSendsEightFrames : Prop :=
  ∀ s : State, s.lc = .ready → s.AcceptsAll 0 8 → ∃ c, exec .flush s =
    .next (State.answered { s with
        trace := s.trace ++ (flushFrames s.params s.fb).map .write, answers := s.answers.drop 8, chips := c }
      0x00020000)

/-- FLUSH (R142) whose row y is short: y + 1 writes and no more, `ShortWrite` naming the row, the count and the row
register; `FB`, `LC` and `BUS_OPEN` as before. -/
def Obligations.ShortFlushStopsAtRow : Prop :=
  ∀ (s : State) (y : Fin 8) (n : Fin 9), s.lc = .ready → s.AcceptsAll 0 y.val → n ≠ 8 → s.Accepts y.val n →
    ∃ c, exec .flush s =
      .next (State.answered { s with
          trace := s.trace ++ ((flushFrames s.params s.fb).take (y.val + 1)).map .write,
          answers := s.answers.drop (y.val + 1), chips := c }
        (responseWord .shortWrite .ready
          { step := y.val, accepted := n.val, failReg := BitVec.ofNat 8 (y.val + 1) }))

/-- A write that is never answered (R89) leaves a FLUSH without response: `BUSY = 1`, `RESP` and the response channel as
before, the requests up to that one on the bus, and nothing but a reset moves the block from there. -/
def Obligations.UnansweredFlushHangs : Prop :=
  ∀ (s : State) (y : Fin 8), s.lc = .ready → s.AcceptsAll 0 y.val → s.answer y.val = .never →
    ∃ c, let t : State := { s with
          trace := s.trace ++ ((flushFrames s.params s.fb).take (y.val + 1)).map .write,
          answers := s.answers.drop (y.val + 1), chips := c, busy := true }
      exec .flush s = .next t ∧ (HostEvent.reset ∉ s.inbox → step t = .next t)

/-- R145: CLEAR and then FLUSH send the blank row frames 1 to 8 in order. -/
def Obligations.ClearThenFlushSendsBlankRows : Prop :=
  ∀ s t : State, s.lc = .ready → s.AcceptsAll 0 8 → exec .clear s = .next t →
    ∃ u, exec .flush t = .next u ∧ u.trace = s.trace ++
      [.write #v[1, 0, 1, 0, 1, 0, 1, 0], .write #v[2, 0, 2, 0, 2, 0, 2, 0], .write #v[3, 0, 3, 0, 3, 0, 3, 0],
       .write #v[4, 0, 4, 0, 4, 0, 4, 0], .write #v[5, 0, 5, 0, 5, 0, 5, 0], .write #v[6, 0, 6, 0, 6, 0, 6, 0],
       .write #v[7, 0, 7, 0, 7, 0, 7, 0], .write #v[8, 0, 8, 0, 8, 0, 8, 0]]

/-! ## INIT -/

/-- INIT (R163) from UNINIT, every request answered in full: `OPEN`, `CONFIGURE`, the 13 frames; `FB` clear,
`BUS_OPEN = 1`, `LC = READY`, `OK`. -/
def Obligations.InitBringsBlockUp : Prop :=
  ∀ (s : State) (v : Int) (r0 r1 : Reply), s.lc = .uninit → s.answer 0 = .given r0 → r0.opens = true →
    s.answer 1 = .given r1 → r1.rejects = none → s.AcceptsAll 2 13 →
    ∃ c, exec (.init v) s =
      .next (State.answered { s with
          fb := Vector.replicate 8 0, lc := .ready, busOpen := true,
          trace := s.trace ++ .openBus :: .configure 0 8 s.params.clockHz :: (initFrames s.params v).map .write,
          answers := s.answers.drop 15, chips := c }
        0x00020000)

/-- INIT (R163) whose bus cannot be opened, or whose configuration is rejected: the error the transport's answer gives,
`FB` clear, `CLOSE` issued once the bus was open, `LC` still UNINIT, the chips untouched. -/
def Obligations.InitFailsBeforeFrames : Prop :=
  ∀ (s : State) (v : Int) (r0 : Reply), s.lc = .uninit → s.answer 0 = .given r0 →
    (r0.opens = false → exec (.init v) s =
      .next (State.answered { s with
          fb := Vector.replicate 8 0, trace := s.trace ++ [.openBus], answers := s.answers.drop 1 }
        0x00000001)) ∧
    (∀ (r1 : Reply) (p : CfgParam), r0.opens = true → s.answer 1 = .given r1 → r1.rejects = some p → s.Answers 2 →
      exec (.init v) s =
      .next (State.answered { s with
          fb := Vector.replicate 8 0, busOpen := false,
          trace := s.trace ++ [.openBus, .configure 0 8 s.params.clockHz, .closeBus], answers := s.answers.drop 3 }
        (match p with
          | .mode => 0x00000002
          | .wordSize => 0x00100002
          | .clock => 0x00200002)))

/-- INIT (R163) whose frame k is short: k + 1 writes, then `CLOSE`; `DeviceInitError` with `CAUSE = ShortWrite`, the step,
the count and the step's register; `FB` clear, `BUS_OPEN = 0`, `LC` still UNINIT. -/
def Obligations.InitFailsAtShortFrame : Prop :=
  ∀ (s : State) (v : Int) (r0 r1 : Reply) (k : Fin 13) (n : Fin 9), s.lc = .uninit → s.answer 0 = .given r0 →
    r0.opens = true → s.answer 1 = .given r1 → r1.rejects = none → s.AcceptsAll 2 k.val → n ≠ 8 →
    s.Accepts (2 + k.val) n → s.Answers (3 + k.val) →
    ∃ c, exec (.init v) s =
      .next (State.answered { s with
          fb := Vector.replicate 8 0, busOpen := false,
          trace := s.trace ++ .openBus :: .configure 0 8 s.params.clockHz ::
            (((initFrames s.params v).take (k.val + 1)).map .write ++ [.closeBus]),
          answers := s.answers.drop (4 + k.val), chips := c }
        (responseWord .deviceInitError .uninit
          { cause := .shortWrite, step := k.val, accepted := n.val,
            failReg := [s.params.regDisplayTest, s.params.regDecodeMode, s.params.regScanLimit, s.params.regIntensity,
              s.params.regShutdown, 1, 2, 3, 4, 5, 6, 7, 8][k] }))

/-! ## SHUTDOWN -/

/-- SHUTDOWN (R165) in READY, every write accepted whole and the `CLOSE` answered, whatever the answer: the blank row
frames, `CLOSE`; `FB` clear, `BUS_OPEN = 0`, `LC = CLOSED`, `OK`. -/
def Obligations.ShutdownBlanksAndCloses : Prop :=
  ∀ s : State, s.lc = .ready → s.AcceptsAll 0 8 → s.Answers 8 → ∃ c, exec .shutdown s =
    .next (State.answered { s with
        fb := Vector.replicate 8 0, lc := .closed, busOpen := false,
        trace := s.trace ++ ((flushFrames s.params (Vector.replicate 8 0)).map .write ++ [.closeBus]),
        answers := s.answers.drop 9, chips := c }
      0x00040000)

/-- SHUTDOWN (R165, R196) whose blanking flush is short at row y still closes the bus and reaches CLOSED, with
`CODE = OK` and the failure in `LOGGED`, `CAUSE`, `STEP`, `ACCEPTED` and `FAIL_REG`. -/
def Obligations.ShutdownClosesDespiteShortWrite : Prop :=
  ∀ (s : State) (y : Fin 8) (n : Fin 9), s.lc = .ready → s.AcceptsAll 0 y.val → n ≠ 8 → s.Accepts y.val n →
    s.Answers (y.val + 1) → ∃ c, exec .shutdown s =
      .next (State.answered { s with
          fb := Vector.replicate 8 0, lc := .closed, busOpen := false,
          trace := s.trace ++
            (((flushFrames s.params (Vector.replicate 8 0)).take (y.val + 1)).map .write ++ [.closeBus]),
          answers := s.answers.drop (y.val + 2), chips := c }
        (responseWord .ok .closed
          { logged := true, cause := .shortWrite, step := y.val, accepted := n.val,
            failReg := BitVec.ofNat 8 (y.val + 1) }))

/-! ## The lifecycle and the whole machine -/

/-- R167: a command that the lifecycle state does not admit answers `BadState`, with no bus request and nothing else
changed, whatever its operands (R195). -/
def Obligations.WrongStateAnswersBadState : Prop :=
  ∀ (i : Instr) (s : State), NotAdmitted i s.lc →
    exec i s = .next (s.answered (responseWord .badState s.lc {}))

/-- R24: a command changes `LC` only by INIT from UNINIT to READY or by SHUTDOWN from READY to CLOSED, and its response is
then `CODE = OK`. -/
def Obligations.LifecycleOnlyMovesForward : Prop :=
  ∀ (i : Instr) (s t : State), exec i s = .next t → t.lc ≠ s.lc →
    ((i.op = .init ∧ s.lc = .uninit ∧ t.lc = .ready) ∨ (i.op = .shutdown ∧ s.lc = .ready ∧ t.lc = .closed)) ∧
    respCode t.resp = 0 ∧ t.busy = false

/-- R166: CLOSED is left by reset alone, and in it no step puts a request on the bus; the commands that would use the bus
answer `BadState`. -/
def Obligations.ClosedIsTerminal : Prop :=
  (∀ s t : State, s.lc = .closed → step s = .next t →
    t.trace = s.trace ∧ (t.lc = .closed ∨ (HostEvent.reset ∈ s.inbox ∧ t.lc = .uninit))) ∧
  (∀ (i : Instr) (s : State), s.lc = .closed → i.op ∈ [Op.init, .flush, .shutdown, .bcast, .row] →
    exec i s = .next (s.answered 0x00040007))

/-- R23: only CLEAR, SETPX, INIT and SHUTDOWN write `FB`; and no command touches the parameters or what the host still
offers. -/
def Obligations.OnlyFourCommandsWriteFramebuffer : Prop :=
  ∀ (i : Instr) (s t : State), exec i s = .next t →
    t.params = s.params ∧ t.inbox = s.inbox ∧ (i.op ∈ [Op.getpx, .flush, .bcast, .row] → t.fb = s.fb)

/-- R60, R190: a command delivers exactly one response, with `LC` as it is after the command and `BUSY = 0`, or a request
of it is never answered (R89) and it delivers none. -/
def Obligations.OneResponsePerCommand : Prop :=
  ∀ (i : Instr) (s t : State), exec i s = .next t →
    (t.busy = false ∧ t.responses = s.responses ++ [t.resp] ∧ respLc t.resp = t.lc.code) ∨
    (t.busy = true ∧ t.responses = s.responses ∧ t.resp = s.resp ∧
      ∃ k, s.answer k = .never ∧ t.trace.length = s.trace.length + k + 1)

/-- R55, R73: every step only adds to the bus trace, and what it adds is `OPEN`, `CONFIGURE` with mode 0, 8 bits and the
clock rate, `CLOSE`, or the `WRITE` of a whole broadcast or row frame. -/
def Obligations.BusCarriesOnlyWholeFrames : Prop :=
  ∀ s t : State, step s = .next t → ∃ reqs, t.trace = s.trace ++ reqs ∧
    ∀ q ∈ reqs, q = .openBus ∨ q = .configure 0 8 s.params.clockHz ∨ q = .closeBus ∨
      ∃ f, q = .write f ∧ FrameOfBlock s.params f

/-- The invariant (R25, R191, R192; the canonical form of the chip registers) is kept by every step. -/
def Obligations.StepKeepsInvariant : Prop :=
  ∀ s t : State, s.Inv → step s = .next t → t.Inv

/-- The reset state has the invariant. -/
def Obligations.ResetHasInvariant : Prop := State.reset.Inv

/-- R32, R34: the block reads no chip register: with other contents in the chips a step does the same to everything but
the chips. -/
def Obligations.BlockNeverReadsChips : Prop :=
  ∀ (s t : State) (c : Chips), step s = .next t → ∃ c', step (s.withChips c) = .next (t.withChips c')

/-! ## The chips -/

/-- R107, with the chips not in doubt: after a ROW or a BCAST to a register the block names, accepted whole, every device
holds its byte in that register and every other register is as it was; a BCAST to an unnamed address leaves every other
known register as it was (what that register then holds is any value, log 12). -/
def Obligations.WholeFrameWritesOneRegister : Prop :=
  ∀ (s t : State), s.lc = .ready → s.Accepts 0 8 → s.chips.doubtful = false →
    (∀ (r : Byte) (D : Vector Byte 4), 1 ≤ r.toNat → r.toNat ≤ 8 → exec (.row r D) s = .next t →
      ∀ (d : Fin 4) (a : Byte), t.chipReg d a = if a = r then D[d] else s.chipReg d a) ∧
    (∀ (reg data : Byte), regClass s.params reg ≠ .unnamed → exec (.bcast reg data) s = .next t →
      ∀ (d : Fin 4) (a : Byte), t.chipReg d a = if a = reg then data else s.chipReg d a) ∧
    (∀ (reg data : Byte), regClass s.params reg = .unnamed → exec (.bcast reg data) s = .next t →
      ∀ (d : Fin 4) (a v : Byte), regClass s.params a ≠ .unnamed →
        Memory.read s.chips.known (chipAddress d a) = some v → s.chipReg d a = v ∧ t.chipReg d a = v)

/-- With the chips not in doubt, a complete flush writes no register but the row registers, and a complete INIT none but
the registers of its steps (R107, R141, R161): every other register of every chip is as it was. -/
def Obligations.CompleteSequencesKeepOtherRegisters : Prop :=
  ∀ (s t : State), s.chips.doubtful = false →
    (∀ i : Instr, i.op = .flush ∨ i.op = .shutdown → s.lc = .ready → s.AcceptsAll 0 8 → exec i s = .next t →
      ∀ (d : Fin 4) (a : Byte), (a.toNat < 1 ∨ 8 < a.toNat) → t.chipReg d a = s.chipReg d a) ∧
    (∀ v : Int, s.lc = .uninit → t.lc = .ready → exec (.init v) s = .next t →
      ∀ (d : Fin 4) (a : Byte), (a.toNat < 1 ∨ 8 < a.toNat) →
        a ∉ [s.params.regDisplayTest, s.params.regDecodeMode, s.params.regScanLimit, s.params.regIntensity,
          s.params.regShutdown] → t.chipReg d a = s.chipReg d a)

/-- R84, R226: after a short write, whichever command's it was (a row of FLUSH or of SHUTDOWN, a frame of INIT, BCAST,
ROW), every register of every chip holds a free value, at an index no earlier value was read at (the model's counter,
log 10); for INIT and SHUTDOWN whether or not the `CLOSE` that follows is answered. -/
def Obligations.ShortWriteLeavesChipsUnknown : Prop :=
  ∀ (s t : State) (n : Fin 9), n ≠ 8 →
    (s.lc = .ready ∧ (∃ y : Fin 8, s.AcceptsAll 0 y.val ∧ s.Accepts y.val n) ∧
        (exec .flush s = .next t ∨ exec .shutdown s = .next t) ∨
      s.lc = .ready ∧ s.Accepts 0 n ∧
        ((∃ reg data, exec (.bcast reg data) s = .next t) ∨
          ∃ (r : Byte) (D : Vector Byte 4), 1 ≤ r.toNat ∧ r.toNat ≤ 8 ∧ exec (.row r D) s = .next t) ∨
      s.lc = .uninit ∧ (∃ r0 r1, s.answer 0 = .given r0 ∧ r0.opens = true ∧ s.answer 1 = .given r1 ∧ r1.rejects = none) ∧
        (∃ k : Fin 13, s.AcceptsAll 2 k.val ∧ s.Accepts (2 + k.val) n) ∧ ∃ v, exec (.init v) s = .next t) →
    s.chips.epoch < t.chips.epoch ∧
    ∀ (d : Fin 4) (a : Byte), t.chipReg d a = Config.chipByte t.chips.epoch (chipAddress d a)

/-- R228, as log 11 reads it (the model's choice: SHUTDOWN's flush ends the doubt about the rows as FLUSH's does, and a
complete INIT does not): a command ends the doubt about the row registers only by a complete flush and the doubt about the
control registers only by a complete INIT; and while the doubt lasts every row (control) register of every chip holds a
free value, at the current index (log 10). Which of the two an address is, is what `regClass` says: the model's choice
(log 17) for a control register parameter in 1..8. -/
def Obligations.DoubtEndsWithCompleteSequence : Prop :=
  (∀ (i : Instr) (s t : State), exec i s = .next t →
    (s.chips.rowsDoubtful = true → t.chips.rowsDoubtful = false →
      (i.op = .flush ∨ i.op = .shutdown) ∧ s.lc = .ready ∧ s.AcceptsAll 0 8) ∧
    (s.chips.controlDoubtful = true → t.chips.controlDoubtful = false →
      i.op = .init ∧ t.lc = .ready ∧ s.AcceptsAll 2 13)) ∧
  (∀ (s : State) (d : Fin 4) (a : Byte),
    (s.chips.rowsDoubtful = true → regClass s.params a = .row →
      s.chipReg d a = Config.chipByte s.chips.epoch (chipAddress d a)) ∧
    (s.chips.controlDoubtful = true → regClass s.params a = .control →
      s.chipReg d a = Config.chipByte s.chips.epoch (chipAddress d a)))

/-- After a FLUSH that completes (R57, R225), whatever the chips held and whatever went wrong before, the row register bit
that drives each LED (R207) is the framebuffer's cell, under every chain order and bit polarity. It rests on log 11: the
complete flush's own frames are taken to have landed (R228). In a build whose control register parameter lies in 1..8 it
rests, after a short write, on log 17 too: that address counts as a row register, the model's choice. It says nothing of
the control registers, which a FLUSH leaves alone (R225, R229): an LED shows its bit only where they let it. -/
def Obligations.FlushShowsFramebuffer : Prop :=
  ∀ s : State, s.lc = .ready → s.AcceptsAll 0 8 → ∃ t, exec .flush s = .next t ∧
    ∀ (x : Fin 32) (y : Fin 8), t.led x y = s.cell x y

/-- After an INIT that completes (R206, R221, R226), every device's control registers have the values that make it show
its row registers, at the clamped intensity; and where no earlier short write left the rows in doubt every LED's row
register bit is off. It rests on log 11, and it leaves out the settings outside `DistinctControl` (log 7): a build whose
five control register addresses are not distinct, or where one of them is a row register's. -/
def Obligations.InitMakesPanelBlankAndOn : Prop :=
  ∀ (s : State) (v : Int) (r0 r1 : Reply), s.lc = .uninit → s.answer 0 = .given r0 → r0.opens = true →
    s.answer 1 = .given r1 → r1.rejects = none → s.AcceptsAll 2 13 → DistinctControl s.params →
    ∃ t, exec (.init v) s = .next t ∧
      (∀ d : Fin 4, t.showsRows d ∧ t.chipReg d t.params.regIntensity = intensityByte v) ∧
      (s.chips.rowsDoubtful = false → ∀ (x : Fin 32) (y : Fin 8), t.led x y = false)

/-- R165: after a SHUTDOWN whose writes are all accepted whole, the row register bit that drives each LED (R207) is off,
whatever the chips held before. It rests on log 11: the flush inside SHUTDOWN settles the rows after a short write (R228).
In a build whose control register parameter lies in 1..8 it rests, after an earlier short write, on log 17 too: that address
counts as a row register, the model's choice. It says nothing of the control registers, which SHUTDOWN
leaves alone (R226, R229). -/
def Obligations.ShutdownBlanksPanel : Prop :=
  ∀ s : State, s.lc = .ready → s.AcceptsAll 0 8 → s.Answers 8 → ∃ t, exec .shutdown s = .next t ∧
    ∀ (x : Fin 32) (y : Fin 8), t.led x y = false
end

