-- ==== Sys2Proof/Laws/State.lean ====
section
/-! SUPPORT. One lemma per field per update of the state, all by rfl, so that no later proof unfolds a record update. -/

namespace Sys2Proof.Machine

section Updates

variable (s : State)

@[simp] theorem State.setCell_fb (x : Fin 32) (y : Fin 8) (on : Bool) : (s.setCell x y on).fb = s.fb.set y (setColumn (s.row y) x on) := rfl
@[simp] theorem State.setCell_lc (x : Fin 32) (y : Fin 8) (on : Bool) : (s.setCell x y on).lc = s.lc := rfl
@[simp] theorem State.setCell_busOpen (x : Fin 32) (y : Fin 8) (on : Bool) : (s.setCell x y on).busOpen = s.busOpen := rfl
@[simp] theorem State.setCell_resp (x : Fin 32) (y : Fin 8) (on : Bool) : (s.setCell x y on).resp = s.resp := rfl
@[simp] theorem State.setCell_busy (x : Fin 32) (y : Fin 8) (on : Bool) : (s.setCell x y on).busy = s.busy := rfl
@[simp] theorem State.setCell_params (x : Fin 32) (y : Fin 8) (on : Bool) : (s.setCell x y on).params = s.params := rfl
@[simp] theorem State.setCell_inbox (x : Fin 32) (y : Fin 8) (on : Bool) : (s.setCell x y on).inbox = s.inbox := rfl
@[simp] theorem State.setCell_responses (x : Fin 32) (y : Fin 8) (on : Bool) : (s.setCell x y on).responses = s.responses := rfl
@[simp] theorem State.setCell_answers (x : Fin 32) (y : Fin 8) (on : Bool) : (s.setCell x y on).answers = s.answers := rfl
@[simp] theorem State.setCell_trace (x : Fin 32) (y : Fin 8) (on : Bool) : (s.setCell x y on).trace = s.trace := rfl
@[simp] theorem State.setCell_chips (x : Fin 32) (y : Fin 8) (on : Bool) : (s.setCell x y on).chips = s.chips := rfl

@[simp] theorem State.clearFb_fb : s.clearFb.fb = Vector.replicate 8 0 := rfl
@[simp] theorem State.clearFb_lc : s.clearFb.lc = s.lc := rfl
@[simp] theorem State.clearFb_busOpen : s.clearFb.busOpen = s.busOpen := rfl
@[simp] theorem State.clearFb_resp : s.clearFb.resp = s.resp := rfl
@[simp] theorem State.clearFb_busy : s.clearFb.busy = s.busy := rfl
@[simp] theorem State.clearFb_params : s.clearFb.params = s.params := rfl
@[simp] theorem State.clearFb_inbox : s.clearFb.inbox = s.inbox := rfl
@[simp] theorem State.clearFb_responses : s.clearFb.responses = s.responses := rfl
@[simp] theorem State.clearFb_answers : s.clearFb.answers = s.answers := rfl
@[simp] theorem State.clearFb_trace : s.clearFb.trace = s.trace := rfl
@[simp] theorem State.clearFb_chips : s.clearFb.chips = s.chips := rfl

@[simp] theorem State.issue_fb (req : BusRequest) : (s.issue req).fb = s.fb := rfl
@[simp] theorem State.issue_lc (req : BusRequest) : (s.issue req).lc = s.lc := rfl
@[simp] theorem State.issue_busOpen (req : BusRequest) : (s.issue req).busOpen = s.busOpen := rfl
@[simp] theorem State.issue_resp (req : BusRequest) : (s.issue req).resp = s.resp := rfl
@[simp] theorem State.issue_busy (req : BusRequest) : (s.issue req).busy = s.busy := rfl
@[simp] theorem State.issue_params (req : BusRequest) : (s.issue req).params = s.params := rfl
@[simp] theorem State.issue_inbox (req : BusRequest) : (s.issue req).inbox = s.inbox := rfl
@[simp] theorem State.issue_responses (req : BusRequest) : (s.issue req).responses = s.responses := rfl
@[simp] theorem State.issue_answers (req : BusRequest) : (s.issue req).answers = s.answers.tail := rfl
@[simp] theorem State.issue_trace (req : BusRequest) : (s.issue req).trace = s.trace ++ [req] := rfl
@[simp] theorem State.issue_chips (req : BusRequest) : (s.issue req).chips = s.chips := rfl

@[simp] theorem State.spoilChips_fb : s.spoilChips.fb = s.fb := rfl
@[simp] theorem State.spoilChips_lc : s.spoilChips.lc = s.lc := rfl
@[simp] theorem State.spoilChips_busOpen : s.spoilChips.busOpen = s.busOpen := rfl
@[simp] theorem State.spoilChips_resp : s.spoilChips.resp = s.resp := rfl
@[simp] theorem State.spoilChips_busy : s.spoilChips.busy = s.busy := rfl
@[simp] theorem State.spoilChips_params : s.spoilChips.params = s.params := rfl
@[simp] theorem State.spoilChips_inbox : s.spoilChips.inbox = s.inbox := rfl
@[simp] theorem State.spoilChips_responses : s.spoilChips.responses = s.responses := rfl
@[simp] theorem State.spoilChips_answers : s.spoilChips.answers = s.answers := rfl
@[simp] theorem State.spoilChips_trace : s.spoilChips.trace = s.trace := rfl
@[simp] theorem State.spoilChips_chips : s.spoilChips.chips = s.chips.spoil := rfl

@[simp] theorem State.latchFrame_fb (f : Frame) : (s.latchFrame f).fb = s.fb := rfl
@[simp] theorem State.latchFrame_lc (f : Frame) : (s.latchFrame f).lc = s.lc := rfl
@[simp] theorem State.latchFrame_busOpen (f : Frame) : (s.latchFrame f).busOpen = s.busOpen := rfl
@[simp] theorem State.latchFrame_resp (f : Frame) : (s.latchFrame f).resp = s.resp := rfl
@[simp] theorem State.latchFrame_busy (f : Frame) : (s.latchFrame f).busy = s.busy := rfl
@[simp] theorem State.latchFrame_params (f : Frame) : (s.latchFrame f).params = s.params := rfl
@[simp] theorem State.latchFrame_inbox (f : Frame) : (s.latchFrame f).inbox = s.inbox := rfl
@[simp] theorem State.latchFrame_responses (f : Frame) : (s.latchFrame f).responses = s.responses := rfl
@[simp] theorem State.latchFrame_answers (f : Frame) : (s.latchFrame f).answers = s.answers := rfl
@[simp] theorem State.latchFrame_trace (f : Frame) : (s.latchFrame f).trace = s.trace := rfl
@[simp] theorem State.latchFrame_chips (f : Frame) : (s.latchFrame f).chips = s.chips.latch s.params f := rfl

@[simp] theorem State.endWith_fb (code : ErrorCode) (f : Fields) : (s.endWith code f).fb = s.fb := rfl
@[simp] theorem State.endWith_lc (code : ErrorCode) (f : Fields) : (s.endWith code f).lc = s.lc := rfl
@[simp] theorem State.endWith_busOpen (code : ErrorCode) (f : Fields) : (s.endWith code f).busOpen = s.busOpen := rfl
@[simp] theorem State.endWith_resp (code : ErrorCode) (f : Fields) : (s.endWith code f).resp = responseWord code s.lc f := rfl
@[simp] theorem State.endWith_busy (code : ErrorCode) (f : Fields) : (s.endWith code f).busy = false := rfl
@[simp] theorem State.endWith_params (code : ErrorCode) (f : Fields) : (s.endWith code f).params = s.params := rfl
@[simp] theorem State.endWith_inbox (code : ErrorCode) (f : Fields) : (s.endWith code f).inbox = s.inbox := rfl
@[simp] theorem State.endWith_responses (code : ErrorCode) (f : Fields) : (s.endWith code f).responses = s.responses ++ [responseWord code s.lc f] := rfl
@[simp] theorem State.endWith_answers (code : ErrorCode) (f : Fields) : (s.endWith code f).answers = s.answers := rfl
@[simp] theorem State.endWith_trace (code : ErrorCode) (f : Fields) : (s.endWith code f).trace = s.trace := rfl
@[simp] theorem State.endWith_chips (code : ErrorCode) (f : Fields) : (s.endWith code f).chips = s.chips := rfl

@[simp] theorem State.accept_fb (rest : List HostEvent) : (s.accept rest).fb = s.fb := rfl
@[simp] theorem State.accept_lc (rest : List HostEvent) : (s.accept rest).lc = s.lc := rfl
@[simp] theorem State.accept_busOpen (rest : List HostEvent) : (s.accept rest).busOpen = s.busOpen := rfl
@[simp] theorem State.accept_resp (rest : List HostEvent) : (s.accept rest).resp = s.resp := rfl
@[simp] theorem State.accept_busy (rest : List HostEvent) : (s.accept rest).busy = true := rfl
@[simp] theorem State.accept_params (rest : List HostEvent) : (s.accept rest).params = s.params := rfl
@[simp] theorem State.accept_inbox (rest : List HostEvent) : (s.accept rest).inbox = rest := rfl
@[simp] theorem State.accept_responses (rest : List HostEvent) : (s.accept rest).responses = s.responses := rfl
@[simp] theorem State.accept_answers (rest : List HostEvent) : (s.accept rest).answers = s.answers := rfl
@[simp] theorem State.accept_trace (rest : List HostEvent) : (s.accept rest).trace = s.trace := rfl
@[simp] theorem State.accept_chips (rest : List HostEvent) : (s.accept rest).chips = s.chips := rfl

@[simp] theorem State.onReset_fb (rest : List HostEvent) : (s.onReset rest).fb = Vector.replicate 8 0 := rfl
@[simp] theorem State.onReset_lc (rest : List HostEvent) : (s.onReset rest).lc = .uninit := rfl
@[simp] theorem State.onReset_busOpen (rest : List HostEvent) : (s.onReset rest).busOpen = false := rfl
@[simp] theorem State.onReset_resp (rest : List HostEvent) : (s.onReset rest).resp = 0 := rfl
@[simp] theorem State.onReset_busy (rest : List HostEvent) : (s.onReset rest).busy = false := rfl
@[simp] theorem State.onReset_params (rest : List HostEvent) : (s.onReset rest).params = s.params := rfl
@[simp] theorem State.onReset_inbox (rest : List HostEvent) : (s.onReset rest).inbox = rest := rfl
@[simp] theorem State.onReset_responses (rest : List HostEvent) : (s.onReset rest).responses = s.responses := rfl
@[simp] theorem State.onReset_answers (rest : List HostEvent) : (s.onReset rest).answers = s.answers := rfl
@[simp] theorem State.onReset_trace (rest : List HostEvent) : (s.onReset rest).trace = s.trace := rfl
@[simp] theorem State.onReset_chips (rest : List HostEvent) : (s.onReset rest).chips = s.chips := rfl

@[simp] theorem State.offer_fb (cmd arg : Word) : (s.offer cmd arg).fb = s.fb := rfl
@[simp] theorem State.offer_lc (cmd arg : Word) : (s.offer cmd arg).lc = s.lc := rfl
@[simp] theorem State.offer_busOpen (cmd arg : Word) : (s.offer cmd arg).busOpen = s.busOpen := rfl
@[simp] theorem State.offer_resp (cmd arg : Word) : (s.offer cmd arg).resp = s.resp := rfl
@[simp] theorem State.offer_busy (cmd arg : Word) : (s.offer cmd arg).busy = false := rfl
@[simp] theorem State.offer_params (cmd arg : Word) : (s.offer cmd arg).params = s.params := rfl
@[simp] theorem State.offer_inbox (cmd arg : Word) : (s.offer cmd arg).inbox = .command cmd arg :: s.inbox := rfl
@[simp] theorem State.offer_responses (cmd arg : Word) : (s.offer cmd arg).responses = s.responses := rfl
@[simp] theorem State.offer_answers (cmd arg : Word) : (s.offer cmd arg).answers = s.answers := rfl
@[simp] theorem State.offer_trace (cmd arg : Word) : (s.offer cmd arg).trace = s.trace := rfl
@[simp] theorem State.offer_chips (cmd arg : Word) : (s.offer cmd arg).chips = s.chips := rfl

@[simp] theorem State.afterRequests_fb (reqs : List BusRequest) : (s.afterRequests reqs).fb = s.fb := rfl
@[simp] theorem State.afterRequests_lc (reqs : List BusRequest) : (s.afterRequests reqs).lc = s.lc := rfl
@[simp] theorem State.afterRequests_busOpen (reqs : List BusRequest) : (s.afterRequests reqs).busOpen = s.busOpen := rfl
@[simp] theorem State.afterRequests_resp (reqs : List BusRequest) : (s.afterRequests reqs).resp = s.resp := rfl
@[simp] theorem State.afterRequests_busy (reqs : List BusRequest) : (s.afterRequests reqs).busy = s.busy := rfl
@[simp] theorem State.afterRequests_params (reqs : List BusRequest) : (s.afterRequests reqs).params = s.params := rfl
@[simp] theorem State.afterRequests_inbox (reqs : List BusRequest) : (s.afterRequests reqs).inbox = s.inbox := rfl
@[simp] theorem State.afterRequests_responses (reqs : List BusRequest) : (s.afterRequests reqs).responses = s.responses := rfl
@[simp] theorem State.afterRequests_answers (reqs : List BusRequest) : (s.afterRequests reqs).answers = s.answers.drop reqs.length := rfl
@[simp] theorem State.afterRequests_trace (reqs : List BusRequest) : (s.afterRequests reqs).trace = s.trace ++ reqs := rfl
@[simp] theorem State.afterRequests_chips (reqs : List BusRequest) : (s.afterRequests reqs).chips = s.chips := rfl

@[simp] theorem State.answered_fb (w : Word) : (s.answered w).fb = s.fb := rfl
@[simp] theorem State.answered_lc (w : Word) : (s.answered w).lc = s.lc := rfl
@[simp] theorem State.answered_busOpen (w : Word) : (s.answered w).busOpen = s.busOpen := rfl
@[simp] theorem State.answered_resp (w : Word) : (s.answered w).resp = w := rfl
@[simp] theorem State.answered_busy (w : Word) : (s.answered w).busy = false := rfl
@[simp] theorem State.answered_params (w : Word) : (s.answered w).params = s.params := rfl
@[simp] theorem State.answered_inbox (w : Word) : (s.answered w).inbox = s.inbox := rfl
@[simp] theorem State.answered_responses (w : Word) : (s.answered w).responses = s.responses ++ [w] := rfl
@[simp] theorem State.answered_answers (w : Word) : (s.answered w).answers = s.answers := rfl
@[simp] theorem State.answered_trace (w : Word) : (s.answered w).trace = s.trace := rfl
@[simp] theorem State.answered_chips (w : Word) : (s.answered w).chips = s.chips := rfl

@[simp] theorem State.withChips_fb (c : Chips) : (s.withChips c).fb = s.fb := rfl
@[simp] theorem State.withChips_lc (c : Chips) : (s.withChips c).lc = s.lc := rfl
@[simp] theorem State.withChips_busOpen (c : Chips) : (s.withChips c).busOpen = s.busOpen := rfl
@[simp] theorem State.withChips_resp (c : Chips) : (s.withChips c).resp = s.resp := rfl
@[simp] theorem State.withChips_busy (c : Chips) : (s.withChips c).busy = s.busy := rfl
@[simp] theorem State.withChips_params (c : Chips) : (s.withChips c).params = s.params := rfl
@[simp] theorem State.withChips_inbox (c : Chips) : (s.withChips c).inbox = s.inbox := rfl
@[simp] theorem State.withChips_responses (c : Chips) : (s.withChips c).responses = s.responses := rfl
@[simp] theorem State.withChips_answers (c : Chips) : (s.withChips c).answers = s.answers := rfl
@[simp] theorem State.withChips_trace (c : Chips) : (s.withChips c).trace = s.trace := rfl
@[simp] theorem State.withChips_chips (c : Chips) : (s.withChips c).chips = c := rfl

end Updates

@[simp] theorem respond_eq_endWith (f : Fields) (s : State) : respond f s = s.endWith .ok f := rfl

@[simp] theorem raise_eq_endWith (e : ErrorCode) (f : Fields) (s : State) : raise e f s = s.endWith e f := rfl

/-- Ending a command is answering its response word (60_exceptions.md R192). -/
theorem endWith_eq_answered (s : State) (e : ErrorCode) (f : Fields) :
    s.endWith e f = s.answered (responseWord e s.lc f) := rfl

end Sys2Proof.Machine
end

