-- ==== Sys2Proof/Laws/ChipRegisters.lean ====
section
/-! SUPPORT. The memory laws of the chip registers, and what a frame leaves in them. -/

namespace Sys2Proof.Machine

/-! ## Memory -/

/-- A read after a write: the value written at that address, and every other address as before. -/
theorem Memory.read_write (m : Memory) (a a' : Nat) (v : Byte) :
    Memory.read (Memory.write m a v) a' = if a' = a then some v else Memory.read m a' := by
  induction m with
  | nil =>
    by_cases h : a' = a
    · simp [Memory.write, Memory.read, h]
    · simp [Memory.write, Memory.read, h, Ne.symm h]
  | cons c m ih =>
    unfold Memory.write
    split
    · by_cases h : a' = a
      · simp [Memory.read, h]
      · simp [Memory.read, h, Ne.symm h]
    · split
      · next heq =>
        by_cases h : a' = a
        · simp [Memory.read, h]
        · simp [Memory.read, h, Ne.symm h, ← heq]
      · next hlt hne =>
        by_cases hc : c.1 = a'
        · have hne' : a' ≠ a := fun e => hne (e ▸ hc.symm)
          simp [Memory.read, hc, hne']
        · simp [Memory.read, hc, ih]

theorem Memory.mem_write {m : Memory} {a : Nat} {v : Byte} {c : Host.Cell} (h : c ∈ Memory.write m a v) :
    c = (a, v) ∨ c ∈ m := by
  induction m with
  | nil => simpa [Memory.write] using h
  | cons d m ih =>
    unfold Memory.write at h
    split at h
    · simpa using h
    · split at h
      · rcases List.mem_cons.1 h with h | h
        · exact .inl h
        · exact .inr (List.mem_cons_of_mem _ h)
      · rcases List.mem_cons.1 h with h | h
        · exact .inr (h ▸ List.mem_cons_self)
        · exact (ih h).imp_right (List.mem_cons_of_mem _)

/-- A write keeps the canonical form. -/
theorem Memory.wf_write {m : Memory} (a : Nat) (v : Byte) (h : Memory.wf m) : Memory.wf (Memory.write m a v) := by
  induction m with
  | nil => simp [Memory.write]
  | cons c m ih =>
    have hc := (List.pairwise_cons.1 h).1
    have hm := (List.pairwise_cons.1 h).2
    unfold Memory.write
    split
    · next hlt =>
      refine List.pairwise_cons.2 ⟨fun d hd => ?_, h⟩
      rcases List.mem_cons.1 hd with e | hd
      · exact e ▸ hlt
      · exact Nat.lt_trans hlt (hc d hd)
    · split
      · next heq => exact List.pairwise_cons.2 ⟨fun d hd => heq ▸ hc d hd, hm⟩
      · next hlt hne =>
        refine List.pairwise_cons.2 ⟨fun d hd => ?_, ih hm⟩
        rcases Memory.mem_write hd with e | hd
        · subst e
          exact Nat.lt_of_le_of_ne (Nat.le_of_not_lt hlt) (Ne.symm hne)
        · exact hc d hd

theorem chipAddress_lt (d : Fin 4) (a : Byte) : chipAddress d a < 1024 := by
  have := a.isLt
  unfold chipAddress
  omega

theorem chipAddress_inj {d d' : Fin 4} {a a' : Byte} : chipAddress d a = chipAddress d' a' ↔ d = d' ∧ a = a' := by
  have := a.isLt
  have := a'.isLt
  unfold chipAddress
  constructor
  · intro h
    exact ⟨Fin.ext (by omega), BitVec.eq_of_toNat_eq (by omega)⟩
  · rintro ⟨rfl, rfl⟩
    rfl

/-! ## Pairs and frames -/

/-- The canonical form and the bound of the listed cells. -/
abbrev CellsOk (m : Memory) : Prop := Memory.wf m ∧ ∀ c ∈ m, c.1 < 1024

/-- Register `a` of device `d` is known to hold `v`. -/
abbrev Chips.Holds (p : Params) (c : Chips) (d : Fin 4) (a v : Byte) : Prop :=
  c.trusts p a = true ∧ Memory.read c.known (chipAddress d a) = some v

theorem Chips.reg_of_holds {p : Params} {c : Chips} {d : Fin 4} {a v : Byte} (h : c.Holds p d a v) :
    c.reg p d a = v := by
  simp [Chips.reg, h.1, h.2]

/-- What a pair can do: it may renew the free values, and where the register is trusted it lists the value. -/
theorem Chips.landPair_cases (p : Params) (c : Chips) (d : Fin 4) (a v : Byte) :
    ∃ e, c.landPair p d a v =
      { c with epoch := e, known := if c.trusts p a then c.known.write (chipAddress d a) v else c.known } := by
  have ht (e : Nat) : Chips.trusts p { c with epoch := e } a = c.trusts p a := rfl
  unfold Chips.landPair
  by_cases hd : (c.doubtful || regClass p a == .unnamed) = true <;> simp only [hd] <;>
    by_cases hta : c.trusts p a = true <;> simp only [hta, ht, if_true, if_false, Bool.false_eq_true]
  · exact ⟨_, rfl⟩
  · exact ⟨_, rfl⟩
  · exact ⟨c.epoch, rfl⟩
  · exact ⟨c.epoch, rfl⟩

@[simp] theorem Chips.landPair_rowsDoubtful (p : Params) (c : Chips) (d : Fin 4) (a v : Byte) :
    (c.landPair p d a v).rowsDoubtful = c.rowsDoubtful := by
  obtain ⟨e, h⟩ := c.landPair_cases p d a v
  rw [h]

@[simp] theorem Chips.landPair_controlDoubtful (p : Params) (c : Chips) (d : Fin 4) (a v : Byte) :
    (c.landPair p d a v).controlDoubtful = c.controlDoubtful := by
  obtain ⟨e, h⟩ := c.landPair_cases p d a v
  rw [h]

@[simp] theorem Chips.landPair_trusts (p : Params) (c : Chips) (d : Fin 4) (a v b : Byte) :
    (c.landPair p d a v).trusts p b = c.trusts p b := by
  simp [Chips.trusts]

theorem Chips.landPair_known (p : Params) (c : Chips) (d : Fin 4) (a v : Byte) :
    (c.landPair p d a v).known = if c.trusts p a then c.known.write (chipAddress d a) v else c.known := by
  obtain ⟨e, h⟩ := c.landPair_cases p d a v
  rw [h]

theorem Chips.cellsOk_landPair {p : Params} {c : Chips} (d : Fin 4) (a v : Byte) (h : CellsOk c.known) :
    CellsOk (c.landPair p d a v).known := by
  rw [Chips.landPair_known]
  split
  · refine ⟨Memory.wf_write _ _ h.1, fun k hk => ?_⟩
    rcases Memory.mem_write hk with e | hk
    · exact e ▸ chipAddress_lt d a
    · exact h.2 k hk
  · exact h

theorem Chips.holds_landPair_self {p : Params} {c : Chips} {d : Fin 4} {a v : Byte} (h : c.trusts p a = true) :
    (c.landPair p d a v).Holds p d a v := by
  refine ⟨by simpa using h, ?_⟩
  simp [Chips.landPair_known, h, Memory.read_write]

theorem Chips.holds_landPair_other {p : Params} {c : Chips} {d d' : Fin 4} {a a' v v' : Byte} (h : c.Holds p d a v)
    (hne : ¬ (d = d' ∧ a = a')) : (c.landPair p d' a' v').Holds p d a v := by
  refine ⟨by simpa using h.1, ?_⟩
  have hne' : chipAddress d a ≠ chipAddress d' a' := fun e => hne (chipAddress_inj.1 e)
  rw [Chips.landPair_known]
  split <;> simp [Memory.read_write, hne', h.2]

/-- The register byte for device `d` in a frame (30_encoding.md R70). -/
def frameReg (p : Params) (f : Frame) (d : Fin 4) : Byte := f[regOffset (slot p.chainOrder d)]
/-- The data byte for device `d` in a frame (30_encoding.md R70). -/
def frameData (p : Params) (f : Frame) (d : Fin 4) : Byte := f[dataOffset (slot p.chainOrder d)]

/-- A frame lands pair by pair. -/
theorem Chips.latch_eq (p : Params) (c : Chips) (f : Frame) :
    c.latch p f =
      (((c.landPair p 0 (frameReg p f 0) (frameData p f 0)).landPair p 1 (frameReg p f 1) (frameData p f 1)).landPair p 2
        (frameReg p f 2) (frameData p f 2)).landPair p 3 (frameReg p f 3) (frameData p f 3) := rfl

@[simp] theorem Chips.latch_rowsDoubtful (p : Params) (c : Chips) (f : Frame) :
    (c.latch p f).rowsDoubtful = c.rowsDoubtful := by
  simp [Chips.latch_eq]

@[simp] theorem Chips.latch_controlDoubtful (p : Params) (c : Chips) (f : Frame) :
    (c.latch p f).controlDoubtful = c.controlDoubtful := by
  simp [Chips.latch_eq]

@[simp] theorem Chips.latch_trusts (p : Params) (c : Chips) (f : Frame) (b : Byte) :
    (c.latch p f).trusts p b = c.trusts p b := by
  simp [Chips.latch_eq]

theorem Chips.cellsOk_latch {p : Params} {c : Chips} (f : Frame) (h : CellsOk c.known) :
    CellsOk (c.latch p f).known := by
  rw [Chips.latch_eq]
  exact cellsOk_landPair _ _ _ (cellsOk_landPair _ _ _ (cellsOk_landPair _ _ _ (cellsOk_landPair _ _ _ h)))

/-- A frame that carries register `a` to device `d` leaves its data byte there (41_encoder.md R107). -/
theorem Chips.holds_latch_self {p : Params} {c : Chips} {f : Frame} {d : Fin 4} {a : Byte} (h : c.trusts p a = true)
    (ha : frameReg p f d = a) : (c.latch p f).Holds p d a (frameData p f d) := by
  rw [Chips.latch_eq]
  subst ha
  fin_cases d
  · exact holds_landPair_other (holds_landPair_other (holds_landPair_other (holds_landPair_self h) (by simp)) (by simp))
      (by simp)
  · exact holds_landPair_other (holds_landPair_other (holds_landPair_self (by simpa using h)) (by simp)) (by simp)
  · exact holds_landPair_other (holds_landPair_self (by simpa using h)) (by simp)
  · exact holds_landPair_self (by simpa using h)

/-- A frame for other registers leaves a known register as it is. -/
theorem Chips.holds_latch_other {p : Params} {c : Chips} {f : Frame} {d : Fin 4} {a v : Byte} (h : c.Holds p d a v)
    (hne : a ≠ frameReg p f d) : (c.latch p f).Holds p d a v := by
  have hd (d' : Fin 4) : ¬ (d = d' ∧ a = frameReg p f d') := by
    rintro ⟨rfl, e⟩
    exact hne e
  rw [Chips.latch_eq]
  exact holds_landPair_other (holds_landPair_other (holds_landPair_other (holds_landPair_other h (hd 0)) (hd 1)) (hd 2))
    (hd 3)

section Runs

variable {p : Params} (frames : List Frame)

@[simp] theorem Chips.latches_rowsDoubtful (c : Chips) :
    (frames.foldl (Chips.latch p) c).rowsDoubtful = c.rowsDoubtful := by
  induction frames generalizing c with
  | nil => rfl
  | cons f fs ih => simp [ih]

@[simp] theorem Chips.latches_controlDoubtful (c : Chips) :
    (frames.foldl (Chips.latch p) c).controlDoubtful = c.controlDoubtful := by
  induction frames generalizing c with
  | nil => rfl
  | cons f fs ih => simp [ih]

@[simp] theorem Chips.latches_trusts (c : Chips) (b : Byte) :
    (frames.foldl (Chips.latch p) c).trusts p b = c.trusts p b := by
  simp [Chips.trusts]

theorem Chips.cellsOk_latches {c : Chips} (h : CellsOk c.known) : CellsOk (frames.foldl (Chips.latch p) c).known := by
  induction frames generalizing c with
  | nil => exact h
  | cons f fs ih => exact ih (cellsOk_latch f h)

theorem Chips.holds_latches_other {c : Chips} {d : Fin 4} {a v : Byte} (h : c.Holds p d a v)
    (hne : ∀ f ∈ frames, a ≠ frameReg p f d) : (frames.foldl (Chips.latch p) c).Holds p d a v := by
  induction frames generalizing c with
  | nil => exact h
  | cons f fs ih =>
    exact ih (holds_latch_other h (hne f List.mem_cons_self)) (fun g hg => hne g (List.mem_cons_of_mem _ hg))

/-- In a run of frames the last one that carries a register decides what it holds. -/
theorem Chips.holds_latches_last {c : Chips} {d : Fin 4} {a : Byte} {f : Frame} (before after : List Frame)
    (h : c.trusts p a = true) (ha : frameReg p f d = a) (hne : ∀ g ∈ after, a ≠ frameReg p g d) :
    ((before ++ f :: after).foldl (Chips.latch p) c).Holds p d a (frameData p f d) := by
  rw [List.foldl_append, List.foldl_cons]
  exact holds_latches_other after (holds_latch_self (by simpa using h) ha) hne

end Runs

theorem Chips.cellsOk_settleRows {p : Params} {c : Chips} (frames : List Frame) (h : CellsOk c.known) :
    CellsOk (c.settleRows p frames).known :=
  Chips.cellsOk_latches frames h

theorem Chips.cellsOk_settleControl {p : Params} {c : Chips} (frames : List Frame) (h : CellsOk c.known) :
    CellsOk (c.settleControl p frames).known :=
  Chips.cellsOk_latches frames h

/-- No register is listed after reset, which is canonical (70_reset_and_hazards.md R221). -/
theorem cellsOk_reset : CellsOk State.reset.chips.known :=
  ⟨List.Pairwise.nil, fun _ h => absurd h List.not_mem_nil⟩

theorem Chips.cellsOk_spoil (c : Chips) : CellsOk c.spoil.known := by
  exact ⟨List.Pairwise.nil, fun _ h => absurd h List.not_mem_nil⟩

/-! ## What reads change, with nothing in doubt -/

/-- A pair for a named register, with nothing in doubt: that register of that device holds the byte, and every other
register reads as before. -/
theorem Chips.reg_landPair {p : Params} {c : Chips} {d : Fin 4} {a v : Byte} (hd : c.doubtful = false)
    (ha : regClass p a ≠ .unnamed) (d' : Fin 4) (a' : Byte) :
    (c.landPair p d a v).reg p d' a' = if d' = d ∧ a' = a then v else c.reg p d' a' := by
  have hc : (regClass p a == .unnamed) = false := by simpa using ha
  have ht : c.trusts p a = true := by
    simp only [Chips.doubtful, Bool.or_eq_false_iff] at hd
    unfold Chips.trusts
    split <;> simp_all
  have hl : c.landPair p d a v = { c with known := c.known.write (chipAddress d a) v } := by
    simp [Chips.landPair, hd, hc, ht]
  have htr : Chips.trusts p { c with known := c.known.write (chipAddress d a) v } a' = c.trusts p a' := rfl
  rw [hl]
  by_cases h : d' = d ∧ a' = a
  · obtain ⟨rfl, rfl⟩ := h
    simp [Chips.reg, htr, ht, Memory.read_write]
  · have hne : chipAddress d' a' ≠ chipAddress d a := fun e => h (chipAddress_inj.1 e)
    simp [Chips.reg, htr, Memory.read_write, hne, h]

@[simp] theorem Chips.landPair_doubtful (p : Params) (c : Chips) (d : Fin 4) (a v : Byte) :
    (c.landPair p d a v).doubtful = c.doubtful := by
  simp [Chips.doubtful]

/-- A frame that carries one named register to every device, with nothing in doubt (41_encoder.md R107). -/
theorem Chips.reg_latch {p : Params} {c : Chips} {f : Frame} {r : Byte} (hd : c.doubtful = false)
    (hr : regClass p r ≠ .unnamed) (hf : ∀ d, frameReg p f d = r) (d : Fin 4) (a : Byte) :
    (c.latch p f).reg p d a = if a = r then frameData p f d else c.reg p d a := by
  rw [Chips.latch_eq]
  simp only [hf]
  rw [Chips.reg_landPair (by simpa using hd) hr, Chips.reg_landPair (by simpa using hd) hr,
    Chips.reg_landPair (by simpa using hd) hr, Chips.reg_landPair hd hr]
  by_cases h : a = r
  · subst h
    fin_cases d <;> simp
  · simp [h]

/-- A run of frames for named registers, with nothing in doubt, leaves every register it does not carry. -/
theorem Chips.reg_latches_other {p : Params} {frames : List Frame} {c : Chips} {d : Fin 4} {a : Byte}
    (hd : c.doubtful = false)
    (hf : ∀ f ∈ frames, ∃ r, regClass p r ≠ .unnamed ∧ a ≠ r ∧ ∀ d, frameReg p f d = r) :
    (frames.foldl (Chips.latch p) c).reg p d a = c.reg p d a := by
  induction frames generalizing c with
  | nil => rfl
  | cons f fs ih =>
    obtain ⟨r, hr, hne, he⟩ := hf f List.mem_cons_self
    rw [List.foldl_cons, ih (by simpa [Chips.doubtful] using hd) (fun g hg => hf g (List.mem_cons_of_mem _ hg)),
      reg_latch hd hr he, if_neg hne]

/-! ## Free values -/

/-- A register whose writes are not known to have landed reads as a free value at the current index. -/
theorem Chips.reg_of_untrusted {p : Params} {c : Chips} {a : Byte} (h : c.trusts p a = false) (d : Fin 4) :
    c.reg p d a = Config.chipByte c.epoch (chipAddress d a) := by
  simp [Chips.reg, h]

/-- After a short write every register reads as a free value (40_bus_transport.md R84). -/
theorem Chips.reg_spoil (p : Params) (c : Chips) (d : Fin 4) (a : Byte) :
    c.spoil.reg p d a = Config.chipByte c.spoil.epoch (chipAddress d a) := by
  simp [Chips.reg, Chips.spoil, Memory.read]

theorem Chips.epoch_landPair (p : Params) (c : Chips) (d : Fin 4) (a v : Byte) :
    c.epoch ≤ (c.landPair p d a v).epoch := by
  unfold Chips.landPair
  simp only
  split <;> split <;> simp

/-- The index of the free values never goes back. -/
theorem Chips.epoch_latches (p : Params) (frames : List Frame) (c : Chips) :
    c.epoch ≤ (frames.foldl (Chips.latch p) c).epoch := by
  induction frames generalizing c with
  | nil => exact Nat.le_refl _
  | cons f fs ih =>
    refine Nat.le_trans ?_ (ih _)
    rw [latch_eq]
    exact Nat.le_trans (Nat.le_trans (Nat.le_trans (epoch_landPair ..) (epoch_landPair ..)) (epoch_landPair ..))
      (epoch_landPair ..)

end Sys2Proof.Machine
end

