-- ==== Sys2Proof/Laws/Bus.lean ====
section
/-! SUPPORT. What the bus operations can do: one lemma per way an operation ends, and one that says there is no other. -/

namespace Sys2Proof.Machine

/-! ## Answers -/

/-- The answers to come depend only on what is listed and on how many requests were issued. -/
theorem answer_congr {s t : State} (ha : t.answers = s.answers) (ht : t.trace.length = s.trace.length) (k : Nat) :
    t.answer k = s.answer k := by
  simp [State.answer, ha, ht]

/-- A request uses up one answer. -/
@[simp] theorem answer_issue (s : State) (req : BusRequest) (k : Nat) : (s.issue req).answer k = s.answer (k + 1) := by
  have h : s.answers.tail[k]? = s.answers[k + 1]? := by cases s.answers <;> simp
  simp [State.answer, h, Nat.add_comm, Nat.add_left_comm]

@[simp] theorem answer_afterRequests (s : State) (reqs : List BusRequest) (k : Nat) :
    (s.afterRequests reqs).answer k = s.answer (reqs.length + k) := by
  simp [State.answer, Nat.add_assoc]

@[simp] theorem answer_latchFrame (s : State) (f : Frame) (k : Nat) : (s.latchFrame f).answer k = s.answer k := rfl
@[simp] theorem answer_spoilChips (s : State) (k : Nat) : s.spoilChips.answer k = s.answer k := rfl
@[simp] theorem answer_clearFb (s : State) (k : Nat) : s.clearFb.answer k = s.answer k := rfl
@[simp] theorem answer_withChips (s : State) (c : Chips) (k : Nat) : (s.withChips c).answer k = s.answer k := rfl

theorem afterRequests_nil (s : State) : s.afterRequests [] = s := by
  simp [State.afterRequests]

theorem afterRequests_cons (s : State) (req : BusRequest) (reqs : List BusRequest) :
    s.afterRequests (req :: reqs) = (s.issue req).afterRequests reqs := by
  simp [State.afterRequests, State.issue]

theorem afterRequests_append (s : State) (as bs : List BusRequest) :
    s.afterRequests (as ++ bs) = (s.afterRequests as).afterRequests bs := by
  simp [State.afterRequests]

/-! ## Single requests -/

theorem bus_given {req : BusRequest} {s : State} {r : Reply} (h : s.answer 0 = .given r) :
    bus req s = .done r (s.issue req) := by
  simp [bus, h]

theorem bus_never {req : BusRequest} {s : State} (h : s.answer 0 = .never) :
    bus req s = .hung { s.issue req with busy := true } := by
  simp [bus, h]

/-- The transport either answers a request or never does. -/
theorem answer_cases (s : State) (k : Nat) : s.answer k = .never ∨ ∃ r, s.answer k = .given r := by
  cases h : s.answer k with
  | never => exact .inl rfl
  | given r => exact .inr ⟨r, rfl⟩

theorem accepts_iff {s : State} {k : Nat} {n : Fin 9} :
    s.Accepts k n ↔ ∃ r, s.answer k = .given r ∧ r.accepts = n := by
  unfold State.Accepts
  cases s.answer k <;> simp [acceptedCount]

theorem answers_iff {s : State} {k : Nat} : s.Answers k ↔ ∃ r, s.answer k = .given r := by
  unfold State.Answers
  cases s.answer k <;> simp

theorem closeBus_given {s : State} {r : Reply} (h : s.answer 0 = .given r) :
    closeBus s = .done () { s.issue .closeBus with busOpen := false } := by
  have h' : State.answer { s with busOpen := false } 0 = .given r := h
  simp [closeBus, bus, h', State.issue]

theorem closeBus_never {s : State} (h : s.answer 0 = .never) :
    closeBus s = .hung { s.issue .closeBus with busOpen := false, busy := true } := by
  have h' : State.answer { s with busOpen := false } 0 = .never := h
  simp [closeBus, bus, h', State.issue]

theorem sendFrame_whole {f : Frame} {s : State} (h : s.Accepts 0 8) :
    sendFrame f s = .done .done ((s.issue (.write f)).latchFrame f) := by
  obtain ⟨r, hr, h8⟩ := accepts_iff.1 h
  simp [sendFrame, bus, hr, h8]

theorem sendFrame_short {f : Frame} {s : State} {n : Fin 9} (hn : s.Accepts 0 n) (h8 : n ≠ 8) :
    sendFrame f s = .done (.short n.val) (s.issue (.write f)).spoilChips := by
  obtain ⟨r, hr, rfl⟩ := accepts_iff.1 hn
  simp [sendFrame, bus, hr, h8]

theorem sendFrame_never {f : Frame} {s : State} (h : s.answer 0 = .never) :
    sendFrame f s = .hung (State.spoilChips { s.issue (.write f) with busy := true }) := by
  simp [sendFrame, bus, h]

/-! ## Runs of frames -/

/-- The requests that a run of frames puts on the bus. -/
abbrev writes (frames : List Frame) : List BusRequest := frames.map .write

/-- The state after a run of frames that were all accepted whole. -/
def State.afterFrames (s : State) (frames : List Frame) : State :=
  { s.afterRequests (writes frames) with chips := frames.foldl (Chips.latch s.params) s.chips }

@[simp] theorem afterFrames_fb (s : State) (fs : List Frame) : (s.afterFrames fs).fb = s.fb := rfl
@[simp] theorem afterFrames_lc (s : State) (fs : List Frame) : (s.afterFrames fs).lc = s.lc := rfl
@[simp] theorem afterFrames_busOpen (s : State) (fs : List Frame) : (s.afterFrames fs).busOpen = s.busOpen := rfl
@[simp] theorem afterFrames_resp (s : State) (fs : List Frame) : (s.afterFrames fs).resp = s.resp := rfl
@[simp] theorem afterFrames_busy (s : State) (fs : List Frame) : (s.afterFrames fs).busy = s.busy := rfl
@[simp] theorem afterFrames_params (s : State) (fs : List Frame) : (s.afterFrames fs).params = s.params := rfl
@[simp] theorem afterFrames_inbox (s : State) (fs : List Frame) : (s.afterFrames fs).inbox = s.inbox := rfl
@[simp] theorem afterFrames_responses (s : State) (fs : List Frame) : (s.afterFrames fs).responses = s.responses := rfl
@[simp] theorem afterFrames_trace (s : State) (fs : List Frame) : (s.afterFrames fs).trace = s.trace ++ writes fs := rfl
@[simp] theorem afterFrames_answers (s : State) (fs : List Frame) :
    (s.afterFrames fs).answers = s.answers.drop fs.length := by
  simp [State.afterFrames]
@[simp] theorem afterFrames_chips (s : State) (fs : List Frame) :
    (s.afterFrames fs).chips = fs.foldl (Chips.latch s.params) s.chips := rfl
@[simp] theorem answer_afterFrames (s : State) (fs : List Frame) (k : Nat) :
    (s.afterFrames fs).answer k = s.answer (fs.length + k) := by
  simp [State.answer, Nat.add_assoc]

@[simp] theorem afterFrames_nil (s : State) : s.afterFrames [] = s := by
  simp [State.afterFrames, State.afterRequests]

theorem afterFrames_cons (s : State) (f : Frame) (fs : List Frame) :
    s.afterFrames (f :: fs) = ((s.issue (.write f)).latchFrame f).afterFrames fs := by
  simp [State.afterFrames, State.afterRequests, State.issue, State.latchFrame]

theorem acceptsAll_cons {s : State} {f : Frame} {n : Nat} :
    s.AcceptsAll 0 (n + 1) ↔ s.Accepts 0 8 ∧ ((s.issue (.write f)).latchFrame f).AcceptsAll 0 n := by
  constructor
  · intro h
    refine ⟨h 0 (Nat.succ_pos n), fun j hj => ?_⟩
    simpa [State.Accepts, Nat.add_comm] using h (j + 1) (Nat.succ_lt_succ hj)
  · rintro ⟨h0, h⟩ j hj
    cases j with
    | zero => exact h0
    | succ j => simpa [State.Accepts, Nat.add_comm] using h j (Nat.lt_of_succ_lt_succ hj)

/-- Every frame accepted whole: the run completes. -/
theorem sendFrames_whole {fs : List Frame} {k : Nat} {s : State} (h : s.AcceptsAll 0 fs.length) :
    sendFrames fs k s = .done none (s.afterFrames fs) := by
  induction fs generalizing k s with
  | nil => simp [sendFrames]
  | cons f fs ih =>
    obtain ⟨h0, hs⟩ := (acceptsAll_cons (f := f)).1 h
    rw [sendFrames, sendFrame_whole h0, afterFrames_cons]
    exact ih hs

/-- Frame `pre.length` of the run is short: the run stops there, and no later frame is sent (40_bus_transport.md R83). -/
theorem sendFrames_short {pre post : List Frame} {f : Frame} {k : Nat} {s : State} {n : Fin 9}
    (h : s.AcceptsAll 0 pre.length) (hn : s.Accepts pre.length n) (h8 : n ≠ 8) :
    sendFrames (pre ++ f :: post) k s =
      .done (some { step := k + pre.length, accepted := n.val, reg := f[0] })
        ((s.afterFrames pre).issue (.write f)).spoilChips := by
  induction pre generalizing k s with
  | nil => simp [sendFrames, sendFrame_short hn h8]
  | cons g pre ih =>
    obtain ⟨h0, hs⟩ := (acceptsAll_cons (f := g)).1 h
    rw [List.cons_append, sendFrames, sendFrame_whole h0, afterFrames_cons]
    simp only
    rw [ih hs (by simpa [State.Accepts] using hn)]
    simp [Nat.add_assoc, Nat.add_comm]

/-- Frame `pre.length` of the run is never answered: the block hangs there (40_bus_transport.md R89). -/
theorem sendFrames_never {pre post : List Frame} {f : Frame} {k : Nat} {s : State}
    (h : s.AcceptsAll 0 pre.length) (hn : s.answer pre.length = .never) :
    sendFrames (pre ++ f :: post) k s =
      .hung (State.spoilChips { (s.afterFrames pre).issue (.write f) with busy := true }) := by
  induction pre generalizing k s with
  | nil => simp [sendFrames, sendFrame_never hn]
  | cons g pre ih =>
    obtain ⟨h0, hs⟩ := (acceptsAll_cons (f := g)).1 h
    rw [List.cons_append, sendFrames, sendFrame_whole h0, afterFrames_cons]
    exact ih hs (by simpa using hn)

/-- A run of frames meets one of three fates: all are accepted whole, one is short, one is never answered. -/
theorem frames_fate (fs : List Frame) (s : State) :
    s.AcceptsAll 0 fs.length ∨ ∃ pre f post, fs = pre ++ f :: post ∧ s.AcceptsAll 0 pre.length ∧
      (s.answer pre.length = .never ∨ ∃ n, s.Accepts pre.length n ∧ n ≠ 8) := by
  induction fs generalizing s with
  | nil => exact .inl (fun j hj => absurd hj (Nat.not_lt_zero j))
  | cons f fs ih =>
    rcases answer_cases s 0 with hn | ⟨r, hr⟩
    · exact .inr ⟨[], f, fs, rfl, fun j hj => absurd hj (Nat.not_lt_zero j), .inl hn⟩
    · by_cases h8 : r.accepts = 8
      · rcases ih ((s.issue (.write f)).latchFrame f) with h | ⟨pre, g, post, rfl, h, hg⟩
        · exact .inl ((acceptsAll_cons (f := f)).2 ⟨accepts_iff.2 ⟨r, hr, h8⟩, h⟩)
        · exact .inr ⟨f :: pre, g, post, rfl, (acceptsAll_cons (f := f)).2 ⟨accepts_iff.2 ⟨r, hr, h8⟩, h⟩, by simpa [State.Accepts] using hg⟩
      · exact .inr ⟨[], f, fs, rfl, fun j hj => absurd hj (Nat.not_lt_zero j), .inr ⟨r.accepts, accepts_iff.2 ⟨r, hr, rfl⟩, h8⟩⟩

/-- Everything a run of frames can do: it leaves all but the trace, the answers, the chips and (when hung) `BUSY` as they
were, and the trace grows by the frames sent. -/
theorem sendFrames_cases (fs : List Frame) (k : Nat) (s : State) :
    sendFrames fs k s = .done none (s.afterFrames fs) ∨
    (∃ pre f post n, fs = pre ++ f :: post ∧ n < 8 ∧
      sendFrames fs k s = .done (some { step := k + pre.length, accepted := n, reg := f[0] })
        ((s.afterFrames pre).issue (.write f)).spoilChips) ∨
    (∃ pre f post, fs = pre ++ f :: post ∧
      sendFrames fs k s = .hung (State.spoilChips { (s.afterFrames pre).issue (.write f) with busy := true })) := by
  rcases frames_fate fs s with h | ⟨pre, f, post, rfl, h, hn | ⟨n, hn, h8⟩⟩
  · exact .inl (sendFrames_whole h)
  · exact .inr (.inr ⟨pre, f, post, rfl, sendFrames_never h hn⟩)
  · refine .inr (.inl ⟨pre, f, post, n.val, rfl, ?_, sendFrames_short h hn h8⟩)
    have hne : n.val ≠ 8 := fun e => h8 (Fin.ext e)
    omega

end Sys2Proof.Machine
end

