-- ==== Sys2Proof/Laws/Words.lean ====
section
/-! SUPPORT. Bit-level laws: the fields of the response word, framebuffer cells, and the bits of a packed byte. -/

namespace Sys2Proof.Machine

section ResponseFields

variable (c : ErrorCode) (lc : Lifecycle) (f : Fields)

@[simp] theorem respCode_responseWord : respCode (responseWord c lc f) = c.number := by
  apply BitVec.eq_of_getLsbD_eq
  intro i hi
  interval_cases i <;> simp [respCode, responseWord, fieldAt]

@[simp] theorem respCause_responseWord : respCause (responseWord c lc f) = f.cause.number := by
  apply BitVec.eq_of_getLsbD_eq
  intro i hi
  interval_cases i <;> simp [respCause, responseWord, fieldAt]

@[simp] theorem respStep_responseWord : respStep (responseWord c lc f) = BitVec.ofNat 4 f.step := by
  apply BitVec.eq_of_getLsbD_eq
  intro i hi
  interval_cases i <;> simp [respStep, responseWord, fieldAt]

@[simp] theorem respAccepted_responseWord : respAccepted (responseWord c lc f) = BitVec.ofNat 4 f.accepted := by
  apply BitVec.eq_of_getLsbD_eq
  intro i hi
  interval_cases i <;> simp [respAccepted, responseWord, fieldAt]

@[simp] theorem respPixel_responseWord : respPixel (responseWord c lc f) = f.pixel := by
  simp [respPixel, responseWord, fieldAt]

@[simp] theorem respLc_responseWord : respLc (responseWord c lc f) = lc.code := by
  apply BitVec.eq_of_getLsbD_eq
  intro i hi
  interval_cases i <;> simp [respLc, responseWord, fieldAt]

@[simp] theorem respLogged_responseWord : respLogged (responseWord c lc f) = f.logged := by
  simp [respLogged, responseWord, fieldAt]

@[simp] theorem respCfgParam_responseWord : respCfgParam (responseWord c lc f) = f.cfgParam := by
  apply BitVec.eq_of_getLsbD_eq
  intro i hi
  interval_cases i <;> simp [respCfgParam, responseWord, fieldAt]

@[simp] theorem respReserved_responseWord : respReserved (responseWord c lc f) = 0 := by
  apply BitVec.eq_of_getLsbD_eq
  intro i hi
  interval_cases i <;> simp [respReserved, responseWord, fieldAt]

@[simp] theorem respFailReg_responseWord : respFailReg (responseWord c lc f) = f.failReg := by
  apply BitVec.eq_of_getLsbD_eq
  intro i hi
  interval_cases i <;> simp [respFailReg, responseWord, fieldAt]

end ResponseFields

theorem getLsbD_setColumn (w : Word) (x x' : Fin 32) (on : Bool) :
    (setColumn w x on).getLsbD x'.val = if x' = x then on else w.getLsbD x'.val := by
  unfold setColumn
  cases on <;> simp [Fin.ext_iff] <;> by_cases h : x'.val = x.val <;> simp [h] <;> omega

/-- Writing one cell changes that cell and no other (00_scope.md R11). -/
theorem cell_setCell (s : State) (x x' : Fin 32) (y y' : Fin 8) (on : Bool) :
    (s.setCell x y on).cell x' y' = if x' = x ∧ y' = y then on else s.cell x' y' := by
  unfold State.cell
  by_cases h : y' = y
  · subst h
    have hrow : (s.setCell x y' on).row y' = setColumn (s.row y') x on := by simp [State.row]
    rw [hrow, getLsbD_setColumn]
    simp
  · have hne : y.val ≠ y'.val := fun e => h (Fin.ext e.symm)
    have hrow : (s.setCell x y on).row y' = s.row y' := by simp [State.row, Vector.getElem_set_ne _ _ hne]
    simp [hrow, h]

theorem cell_clearFb (s : State) (x : Fin 32) (y : Fin 8) : s.clearFb.cell x y = false := by
  simp [State.cell, State.row]

/-- Coordinates in range address the cell they name. -/
theorem cellOf_inRange {x y : Int} (h : InRange x y) :
    cellOf x y = some (⟨x.toNat, by omega⟩, ⟨y.toNat, by omega⟩) := by
  have hx : Fin.ofNat 32 x.toNat = ⟨x.toNat, by omega⟩ := Fin.ext (Nat.mod_eq_of_lt (by omega))
  have hy : Fin.ofNat 8 y.toNat = ⟨y.toNat, by omega⟩ := Fin.ext (Nat.mod_eq_of_lt (by omega))
  rw [cellOf, if_pos h, hx, hy]

theorem cellOf_outOfRange {x y : Int} (h : ¬ InRange x y) : cellOf x y = none := if_neg h

theorem getLsbD_byteOfBits (f : Fin 8 → Bool) (b : Fin 8) : (byteOfBits f).getLsbD b.val = f b := by
  fin_cases b <;> simp [byteOfBits]

/-- Bit b of a packed byte is column 8 d + col(b) (42_framebuffer.md R124). -/
theorem getLsbD_pack (q : BitPolarity) (w : Word) (d : Fin 4) (b : Fin 8) :
    (pack q w d).getLsbD b.val = w.getLsbD (8 * d.val + (colOf q b).val) :=
  getLsbD_byteOfBits (fun b => w.getLsbD (8 * d.val + (colOf q b).val)) b

@[simp] theorem colOf_colOf (q : BitPolarity) (b : Fin 8) : colOf q (colOf q b) = b := by
  cases q <;> ext <;> simp [colOf]
  omega

end Sys2Proof.Machine
end

