-- ==== Sys2Proof/Laws/Commands.lean ====
section
/-! SUPPORT. What the command port, a flush and the bus commands can do, each said once. -/

namespace Sys2Proof.Machine

/-! ## The command port -/

theorem portAction_command {s : State} {cmd arg : Word} {rest : List HostEvent} {i : Instr} (hb : s.busy = false)
    (hi : s.inbox = .command cmd arg :: rest) (hd : decode cmd arg = .ok i) : s.portAction = .run i rest := by
  simp [State.portAction, hb, hi, hd]

theorem portAction_illegal {s : State} {cmd arg : Word} {rest : List HostEvent} {e : Illegal} (hb : s.busy = false)
    (hi : s.inbox = .command cmd arg :: rest) (hd : decode cmd arg = .error e) : s.portAction = .illegal rest := by
  simp [State.portAction, hb, hi, hd]

/-- A reset is taken only where the host asserts one. -/
theorem reset_mem_of_portAction {s : State} {rest : List HostEvent} (h : s.portAction = .reset rest) :
    HostEvent.reset ∈ s.inbox := by
  unfold State.portAction at h
  split at h
  · split at h
    · assumption
    · cases h
  · split at h
    · cases h
    · next he => simp [he]
    · split at h <;> cases h

/-- A command is accepted only by an idle block. -/
theorem idle_of_portAction {s : State} {i : Instr} {rest : List HostEvent}
    (h : s.portAction = .run i rest ∨ s.portAction = .illegal rest) : s.busy = false := by
  by_cases hb : s.busy = true
  · unfold State.portAction at h
    rw [if_pos hb] at h
    rcases h with h | h <;> split at h <;> cases h
  · simpa using hb

/-- Everything a step can do: stay, take a reset, refuse an illegal word, or run a command. -/
theorem step_cases {s t : State} (h : step s = .next t) :
    t = s ∨ (∃ rest, HostEvent.reset ∈ s.inbox ∧ t = s.onReset rest) ∨
    (∃ rest, s.busy = false ∧ t = illegalCommand (s.accept rest)) ∨
    (∃ i rest, s.busy = false ∧ exec i (s.accept rest) = .next t) := by
  unfold step at h
  split at h
  · injection h with h
    exact .inl h.symm
  · next rest hp =>
    injection h with h
    exact .inr (.inl ⟨rest, reset_mem_of_portAction hp, h.symm⟩)
  · next rest hp =>
    injection h with h
    exact .inr (.inr (.inl ⟨rest, idle_of_portAction (i := .clear) (.inr hp), h.symm⟩))
  · next i rest hp => exact .inr (.inr (.inr ⟨i, rest, idle_of_portAction (.inl hp), h⟩))

/-! ## A flush -/

@[simp] theorem flushFrames_length (p : Params) (fb : Vector Word 8) : (flushFrames p fb).length = 8 := rfl

@[simp] theorem initFrames_length (p : Params) (v : Int) : (initFrames p v).length = 13 := rfl

/-- The state after a flush whose frames were all accepted whole. -/
def State.flushed (s : State) : State :=
  { s.afterFrames (flushFrames s.params s.fb) with
    chips := ((flushFrames s.params s.fb).foldl (Chips.latch s.params) s.chips).settleRows s.params
      (flushFrames s.params s.fb) }

/-- The state after a run of frames stopped by a short write of frame `k`: the writes of its first k + 1 frames, and chips
whose contents are unknown. -/
def State.cutAt (s : State) (frames : List Frame) (k : Nat) : State :=
  { s with
    trace := s.trace ++ writes (frames.take (k + 1)), answers := s.answers.drop (k + 1),
    chips := ((frames.take k).foldl (Chips.latch s.params) s.chips).spoil }

theorem doFlush_whole {s : State} (h : s.AcceptsAll 0 8) : doFlush s = .done none s.flushed := by
  rw [doFlush, sendFrames_whole (fs := flushFrames s.params s.fb) h]
  rfl

/-- Cutting the run of frames at frame `k`. -/
theorem frames_split {frames : List Frame} {k : Nat} (hk : k < frames.length) :
    frames = frames.take k ++ frames[k] :: frames.drop (k + 1) := by
  simp

/-- A run of frames accepted up to frame `k`, and then frame `k` not whole. -/
theorem afterFrames_cut {frames : List Frame} {k : Nat} (s : State) (hk : k < frames.length) :
    ((s.afterFrames (frames.take k)).issue (.write frames[k])).spoilChips = s.cutAt frames k := by
  have hl : min k frames.length = k := by omega
  have ht : writes (frames.take (k + 1)) = writes (frames.take k) ++ [.write frames[k]] := by
    rw [← List.take_append_getElem hk, writes, List.map_append]
    rfl
  ext1 <;> simp [State.cutAt, ht, hl, -List.map_take]

theorem sendFrames_short_at {frames : List Frame} {k : Nat} {s : State} {n : Fin 9} (hk : k < frames.length)
    (h : s.AcceptsAll 0 k) (hn : s.Accepts k n) (h8 : n ≠ 8) :
    sendFrames frames 0 s =
      .done (some { step := k, accepted := n.val, reg := frames[k][0] }) (s.cutAt frames k) := by
  have hl : (frames.take k).length = k := by simp; omega
  conv_lhs => rw [frames_split hk]
  rw [sendFrames_short (by rwa [hl]) (by rwa [hl]) h8, hl, Nat.zero_add, afterFrames_cut]

theorem sendFrames_never_at {frames : List Frame} {k : Nat} {s : State} (hk : k < frames.length)
    (h : s.AcceptsAll 0 k) (hn : s.answer k = .never) :
    sendFrames frames 0 s = .hung { s.cutAt frames k with busy := true } := by
  have hl : (frames.take k).length = k := by simp; omega
  conv_lhs => rw [frames_split hk]
  rw [sendFrames_never (by rwa [hl]) (by rwa [hl]), ← afterFrames_cut s hk]
  rfl

theorem doFlush_short {s : State} {k : Nat} {n : Fin 9} (hk : k < 8) (h : s.AcceptsAll 0 k) (hn : s.Accepts k n)
    (h8 : n ≠ 8) :
    doFlush s = .done (some { step := k, accepted := n.val, reg := (flushFrames s.params s.fb)[k][0] })
      (s.cutAt (flushFrames s.params s.fb) k) := by
  rw [doFlush, sendFrames_short_at (frames := flushFrames s.params s.fb) hk h hn h8]

theorem doFlush_never {s : State} {k : Nat} (hk : k < 8) (h : s.AcceptsAll 0 k) (hn : s.answer k = .never) :
    doFlush s = .hung { s.cutAt (flushFrames s.params s.fb) k with busy := true } := by
  rw [doFlush, sendFrames_never_at (frames := flushFrames s.params s.fb) hk h hn]

/-- A run of frames is accepted whole, or is short at one of them, or hangs at one of them. -/
theorem frames_fate_at (s : State) (m : Nat) :
    s.AcceptsAll 0 m ∨ ∃ k < m, s.AcceptsAll 0 k ∧ (s.answer k = .never ∨ ∃ n, s.Accepts k n ∧ n ≠ 8) := by
  rcases frames_fate (List.replicate m (encodeBroadcast 0 0)) s with h | ⟨pre, f, post, he, h, hf⟩
  · exact .inl (by simpa using h)
  · have hl := congrArg List.length he
    simp at hl
    exact .inr ⟨pre.length, by omega, h, hf⟩

@[simp] theorem cutAt_fb (s : State) (frames : List Frame) (k : Nat) : (s.cutAt frames k).fb = s.fb := rfl
@[simp] theorem cutAt_lc (s : State) (frames : List Frame) (k : Nat) : (s.cutAt frames k).lc = s.lc := rfl
@[simp] theorem cutAt_busOpen (s : State) (frames : List Frame) (k : Nat) : (s.cutAt frames k).busOpen = s.busOpen := rfl
@[simp] theorem cutAt_resp (s : State) (frames : List Frame) (k : Nat) : (s.cutAt frames k).resp = s.resp := rfl
@[simp] theorem cutAt_busy (s : State) (frames : List Frame) (k : Nat) : (s.cutAt frames k).busy = s.busy := rfl
@[simp] theorem cutAt_params (s : State) (frames : List Frame) (k : Nat) : (s.cutAt frames k).params = s.params := rfl
@[simp] theorem cutAt_inbox (s : State) (frames : List Frame) (k : Nat) : (s.cutAt frames k).inbox = s.inbox := rfl
@[simp] theorem cutAt_responses (s : State) (frames : List Frame) (k : Nat) : (s.cutAt frames k).responses = s.responses := rfl
@[simp] theorem cutAt_trace (s : State) (frames : List Frame) (k : Nat) :
    (s.cutAt frames k).trace = s.trace ++ writes (frames.take (k + 1)) := rfl
@[simp] theorem cutAt_answers (s : State) (frames : List Frame) (k : Nat) :
    (s.cutAt frames k).answers = s.answers.drop (k + 1) := rfl
@[simp] theorem cutAt_chips (s : State) (frames : List Frame) (k : Nat) :
    (s.cutAt frames k).chips = ((frames.take k).foldl (Chips.latch s.params) s.chips).spoil := rfl

/-- The answers after a run cut short at one of its frames. -/
theorem answer_cutAt {frames : List Frame} {k : Nat} (s : State) (hk : k < frames.length) (j : Nat) :
    (s.cutAt frames k).answer j = s.answer (k + 1 + j) := by
  have hm : min (k + 1) frames.length = k + 1 := by omega
  simp [State.answer, hm, Nat.add_assoc]

@[simp] theorem flushed_fb (s : State) : s.flushed.fb = s.fb := rfl
@[simp] theorem flushed_lc (s : State) : s.flushed.lc = s.lc := rfl
@[simp] theorem flushed_busOpen (s : State) : s.flushed.busOpen = s.busOpen := rfl
@[simp] theorem flushed_resp (s : State) : s.flushed.resp = s.resp := rfl
@[simp] theorem flushed_busy (s : State) : s.flushed.busy = s.busy := rfl
@[simp] theorem flushed_params (s : State) : s.flushed.params = s.params := rfl
@[simp] theorem flushed_inbox (s : State) : s.flushed.inbox = s.inbox := rfl
@[simp] theorem flushed_responses (s : State) : s.flushed.responses = s.responses := rfl
@[simp] theorem flushed_trace (s : State) : s.flushed.trace = s.trace ++ writes (flushFrames s.params s.fb) := rfl
@[simp] theorem flushed_answers (s : State) : s.flushed.answers = s.answers.drop 8 := by
  simp [State.flushed]
@[simp] theorem answer_flushed (s : State) (k : Nat) : s.flushed.answer k = s.answer (8 + k) := by
  simp [State.answer, Nat.add_assoc]

/-- A completed flush changes the trace, the answers and the chips, and nothing else. -/
theorem flushed_eq (s : State) :
    s.flushed = { s with
      trace := s.trace ++ writes (flushFrames s.params s.fb), answers := s.answers.drop 8,
      chips := ((flushFrames s.params s.fb).foldl (Chips.latch s.params) s.chips).settleRows s.params
        (flushFrames s.params s.fb) } := by
  have ha : (s.afterFrames (flushFrames s.params s.fb)).answers = s.answers.drop 8 := by simp
  rw [← ha]
  rfl

/-! ## Opening and configuring -/

theorem openBus_yes {s : State} {r : Reply} (h : s.answer 0 = .given r) (ho : r.opens = true) :
    openBus s = .done true { s.issue .openBus with busOpen := true } := by
  simp [openBus, bus, h, ho]

theorem openBus_no {s : State} {r : Reply} (h : s.answer 0 = .given r) (ho : r.opens = false) :
    openBus s = .done false (s.issue .openBus) := by
  simp [openBus, bus, h, ho]

theorem openBus_never {s : State} (h : s.answer 0 = .never) :
    openBus s = .hung { s.issue .openBus with busy := true } := by
  simp [openBus, bus, h]

theorem configureBus_given {s : State} {r : Reply} (h : s.answer 0 = .given r) :
    configureBus s = .done r.rejects (s.issue (.configure 0 8 s.params.clockHz)) := by
  simp [configureBus, bus, h]

theorem configureBus_never {s : State} (h : s.answer 0 = .never) :
    configureBus s = .hung { s.issue (.configure 0 8 s.params.clockHz) with busy := true } := by
  simp [configureBus, bus, h]

/-- The state of an INIT with the bus open: framebuffer clear, `OPEN` answered `OK`. -/
def State.opened (s : State) : State :=
  { s with fb := Vector.replicate 8 0, busOpen := true, trace := s.trace ++ [.openBus], answers := s.answers.drop 1 }

/-- The state of an INIT with the bus open and `CONFIGURE` answered. -/
def State.configured (s : State) : State :=
  { s with
    fb := Vector.replicate 8 0, busOpen := true,
    trace := s.trace ++ [.openBus, .configure 0 8 s.params.clockHz], answers := s.answers.drop 2 }

@[simp] theorem answer_opened (s : State) (k : Nat) : s.opened.answer k = s.answer (1 + k) := by
  simp [State.answer, State.opened, Nat.add_assoc, Nat.add_comm 1]

@[simp] theorem answer_configured (s : State) (k : Nat) : s.configured.answer k = s.answer (2 + k) := by
  simp [State.answer, State.configured, Nat.add_assoc]

/-- An INIT whose bus opens (44_lifecycle.md R163). -/
theorem bringUp_opens {s : State} {v : Int} {r : Reply} (h : s.answer 0 = .given r) (ho : r.opens = true) :
    bringUp v s.clearFb = match configureBus s.opened with
      | .hung u => u
      | .done (some p) u => abandonInit .configurationError { cfgParam := cfgParamCode p } u
      | .done none u => sendInitFrames v u := by
  have e : ({ s.clearFb.issue .openBus with busOpen := true } : State) = s.opened := by
    ext1 <;> simp [State.opened]
  have h' : openBus s.clearFb = .done true s.opened := by
    rw [openBus_yes (s := s.clearFb) h ho, e]
  simp only [bringUp, h'] <;> rcases configureBus s.opened with ⟨_ | p, u⟩ | u <;> rfl

/-- An INIT whose bus opens and whose `CONFIGURE` is answered (44_lifecycle.md R163). -/
theorem bringUp_configured {s : State} {v : Int} {r0 r1 : Reply} (h0 : s.answer 0 = .given r0) (ho : r0.opens = true)
    (h1 : s.answer 1 = .given r1) :
    bringUp v s.clearFb = match r1.rejects with
      | some p => abandonInit .configurationError { cfgParam := cfgParamCode p } s.configured
      | none => sendInitFrames v s.configured := by
  have e : s.opened.issue (.configure 0 8 s.opened.params.clockHz) = s.configured := by
    ext1 <;> simp [State.opened, State.configured, ← List.drop_one]
  have h' : configureBus s.opened = .done r1.rejects s.configured := by
    rw [configureBus_given (r := r1) (by simpa using h1), e]
  rw [bringUp_opens h0 ho, h']
  cases r1.rejects <;> rfl

theorem abandonInit_given {s : State} {r : Reply} {e : ErrorCode} {f : Fields} (h : s.answer 0 = .given r) :
    abandonInit e f s = raise e f { s.issue .closeBus with busOpen := false } := by
  simp only [abandonInit, closeBus_given h]

/-! ## The chips after complete sequences -/

/-- A row register's class. -/
theorem regClass_row {p : Params} {a : Byte} (h : 1 ≤ a.toNat) (h' : a.toNat ≤ 8) : regClass p a = .row := by
  simp [regClass, h, h']

/-- The register byte of every slot of a broadcast frame. -/
@[simp] theorem frameReg_broadcast (p : Params) (reg data : Byte) (d : Fin 4) :
    frameReg p (encodeBroadcast reg data) d = reg := by
  cases p with
  | mk o => cases o <;> fin_cases d <;> rfl

@[simp] theorem frameData_broadcast (p : Params) (reg data : Byte) (d : Fin 4) :
    frameData p (encodeBroadcast reg data) d = data := by
  cases p with
  | mk o => cases o <;> fin_cases d <;> rfl

@[simp] theorem frameReg_rowBytes (p : Params) (r : Byte) (D : Vector Byte 4) (d : Fin 4) :
    frameReg p (rowBytes p.chainOrder r D) d = r := by
  cases p with
  | mk o => cases o <;> fin_cases d <;> rfl

@[simp] theorem frameData_rowBytes (p : Params) (r : Byte) (D : Vector Byte 4) (d : Fin 4) :
    frameData p (rowBytes p.chainOrder r D) d = D[d] := by
  cases p with
  | mk o => cases o <;> fin_cases d <;> rfl

theorem packRow_get (q : BitPolarity) (w : Word) (d : Fin 4) : (packRow q w)[d] = pack q w d := by
  fin_cases d <;> rfl

end Sys2Proof.Machine
end

