-- ==== Sys2Proof/Laws/Decode.lean ====
section
/-! SUPPORT. What the decoder can answer, said once, and the laws of the operand fields. -/

namespace Sys2Proof

theorem selected_row {cmd : Word} {r : OpcodeRow} (h : opcodeTable.find? (fun r => r.selects cmd) = some r) :
    r ∈ opcodeTable ∧ cmd &&& r.mask = r.pattern :=
  ⟨List.mem_of_find?_eq_some h, by simpa [OpcodeRow.selects] using List.find?_some h⟩

/-- A word that selects a row has the row's opcode. -/
theorem opc_of_selects {cmd : Word} {r : OpcodeRow} (hr : r ∈ opcodeTable) (h : cmd &&& r.mask = r.pattern) :
    opc cmd = opc r.pattern := by
  rw [← h]
  simp only [opcodeTable, List.mem_cons, List.not_mem_nil, or_false] at hr
  apply BitVec.eq_of_getLsbD_eq
  intro i hi
  rcases hr with rfl | rfl | rfl | rfl | rfl | rfl | rfl | rfl <;> interval_cases i <;> simp [opc]

/-- The rows' opcodes differ. -/
theorem opcodes_distinct :
    ∀ r ∈ opcodeTable, ∀ r' ∈ opcodeTable, opc r.pattern = opc r'.pattern → r = r' := by
  decide

/-- No word selects two rows. -/
theorem selects_unique {cmd : Word} {r r' : OpcodeRow} (hr : r ∈ opcodeTable) (hr' : r' ∈ opcodeTable)
    (h : cmd &&& r.mask = r.pattern) (h' : cmd &&& r'.mask = r'.pattern) : r = r' :=
  opcodes_distinct r hr r' hr' ((opc_of_selects hr h).symm.trans (opc_of_selects hr' h'))

/-- A word that selects a row decodes to that row's command. -/
theorem decode_of_selects {cmd arg : Word} {r : OpcodeRow} (hr : r ∈ opcodeTable) (h : cmd &&& r.mask = r.pattern) :
    decode cmd arg = .ok (operands r.op cmd arg) := by
  unfold decode
  cases hf : opcodeTable.find? (fun r => r.selects cmd) with
  | none =>
    have := List.find?_eq_none.1 hf r hr
    simp [OpcodeRow.selects, h] at this
  | some r' => rw [selects_unique hr (selected_row hf).1 h (selected_row hf).2]

/-- A word that decodes selects a row, and its command is that row's. -/
theorem decode_ok {cmd arg : Word} {i : Instr} (h : decode cmd arg = .ok i) :
    ∃ r ∈ opcodeTable, cmd &&& r.mask = r.pattern ∧ i = operands r.op cmd arg := by
  unfold decode at h
  split at h
  · next r hf =>
    cases h
    exact ⟨r, (selected_row hf).1, (selected_row hf).2, rfl⟩
  · split at h <;> cases h

@[simp] theorem operands_op (op : Op) (cmd arg : Word) : (operands op cmd arg).op = op := by
  cases op <;> rfl

/-! ## Operand fields -/

theorem byte_signed (b : Byte) : SignedByte b.toInt := by
  have := b.toInt_lt
  have := b.le_toInt
  simp at *
  omega

theorem toInt_ofInt_signed {v : Int} (h : SignedByte v) : (BitVec.ofInt 8 v).toInt = v := by
  rw [BitVec.toInt_ofInt]
  simp [Int.bmod_def]
  omega

theorem signed_of_check {x y : Int} (h : checkCoordinates x y = none) : SignedByte x ∧ SignedByte y := by
  unfold checkCoordinates at h
  split at h
  · cases h
  · next hx =>
    split at h
    · cases h
    · next hy => exact ⟨not_not.1 hx, not_not.1 hy⟩

theorem devDataWord_devDataOf (arg : Word) : devDataWord (devDataOf arg) = arg := by
  apply BitVec.eq_of_getLsbD_eq
  intro i hi
  interval_cases i <;> simp [devDataWord, devDataOf, byteAt]

theorem devDataOf_devDataWord (D : Vector Byte 4) : devDataOf (devDataWord D) = D := by
  apply Vector.ext
  intro i hi
  interval_cases i <;> (apply BitVec.eq_of_getLsbD_eq; intro j hj; interval_cases j <;>
    simp [devDataWord, devDataOf, byteAt])

/-- Bit i of a masked word. -/
theorem getLsbD_of_mask {cmd m p : Word} (h : cmd &&& m = p) (i : Nat) :
    (cmd.getLsbD i && m.getLsbD i) = p.getLsbD i := by
  rw [← h, BitVec.getLsbD_and]

end Sys2Proof
end

