-- ==== Sys2Proof/Laws/Exec.lean ====
section
/-! SUPPORT. Everything a command can do, said once: what it leaves alone, what it may put on the bus, how it ends. -/

namespace Sys2Proof.Machine

/-- What the block may put on the bus (30_encoding.md R73). -/
abbrev BusWord (p : Params) (q : BusRequest) : Prop :=
  q = .openBus ∨ q = .configure 0 8 p.clockHz ∨ q = .closeBus ∨ ∃ f, q = .write f ∧ FrameOfBlock p f

/-- What holds of the state `u` in which a part of a command leaves the block, started in `s`. -/
structure Progress (s u : State) : Prop where
  params    : u.params = s.params
  inbox     : u.inbox = s.inbox
  responses : u.responses = s.responses
  resp      : u.resp = s.resp
  trace     : ∃ reqs, u.trace = s.trace ++ reqs ∧ ∀ q ∈ reqs, BusWord s.params q
  answers   : ∀ k, u.answer k = s.answer (u.trace.length - s.trace.length + k)
  cells     : CellsOk s.chips.known → CellsOk u.chips.known

theorem Progress.refl (s : State) : Progress s s :=
  ⟨rfl, rfl, rfl, rfl, ⟨[], by simp, by simp⟩, by simp, id⟩

theorem Progress.trace_le {s u : State} (h : Progress s u) : s.trace.length ≤ u.trace.length := by
  obtain ⟨reqs, h, -⟩ := h.trace
  simp [h]

theorem Progress.trans {s u v : State} (h : Progress s u) (h' : Progress u v) : Progress s v where
  params := h'.params.trans h.params
  inbox := h'.inbox.trans h.inbox
  responses := h'.responses.trans h.responses
  resp := h'.resp.trans h.resp
  trace := by
    obtain ⟨r, hr, hq⟩ := h.trace
    obtain ⟨r', hr', hq'⟩ := h'.trace
    refine ⟨r ++ r', by rw [hr', hr, List.append_assoc], fun q hm => ?_⟩
    rcases List.mem_append.1 hm with hm | hm
    · exact hq q hm
    · exact h.params ▸ hq' q hm
  answers := fun k => by
    have h1 := h.trace_le
    have h2 := h'.trace_le
    rw [h'.answers, h.answers]
    congr 1
    omega
  cells := h'.cells ∘ h.cells

/-- A step that changes only the framebuffer, `LC`, `BUS_OPEN` or `BUSY`. -/
theorem Progress.of_eq {s u : State} (hp : u.params = s.params) (hi : u.inbox = s.inbox)
    (hr : u.responses = s.responses) (hw : u.resp = s.resp) (ht : u.trace = s.trace) (ha : u.answers = s.answers)
    (hc : CellsOk s.chips.known → CellsOk u.chips.known) : Progress s u where
  params := hp
  inbox := hi
  responses := hr
  resp := hw
  trace := ⟨[], by simp [ht], by simp⟩
  answers := fun k => by simp [answer_congr ha (congrArg List.length ht), ht]
  cells := hc

theorem Progress.issue {s : State} {req : BusRequest} (h : BusWord s.params req) : Progress s (s.issue req) where
  params := rfl
  inbox := rfl
  responses := rfl
  resp := rfl
  trace := ⟨[req], rfl, by simpa using h⟩
  answers := fun k => by simp [Nat.add_comm]
  cells := id

theorem Progress.afterFrames {s : State} {fs : List Frame} (h : ∀ f ∈ fs, FrameOfBlock s.params f) :
    Progress s (s.afterFrames fs) where
  params := rfl
  inbox := rfl
  responses := rfl
  resp := rfl
  trace := by
    refine ⟨writes fs, rfl, fun q hq => ?_⟩
    obtain ⟨f, hf, rfl⟩ := List.mem_map.1 hq
    exact .inr (.inr (.inr ⟨f, rfl, h f hf⟩))
  answers := fun k => by simp
  cells := Chips.cellsOk_latches fs

/-! ## The frames a command sends -/

theorem frameOfBlock_broadcast (p : Params) (reg data : Byte) : FrameOfBlock p (encodeBroadcast reg data) :=
  .inl ⟨reg, data, rfl⟩

theorem frameOfBlock_initFrames (p : Params) (v : Int) : ∀ f ∈ initFrames p v, FrameOfBlock p f := by
  intro f hf
  obtain ⟨st, -, rfl⟩ := List.mem_map.1 hf
  exact frameOfBlock_broadcast p _ _

/-- A row frame of a valid row is what `encodeRow` answers (41_encoder.md R101). -/
theorem encodeRow_valid {o : ChainOrder} {r : Byte} {D : Vector Byte 4} (h1 : 1 ≤ r.toNat) (h8 : r.toNat ≤ 8) :
    encodeRow o r.toNat D = some (rowBytes o r D) := by
  have he : encodeRow o r.toNat D = some (rowBytes o (BitVec.ofInt 8 r.toNat) D) :=
    if_neg (by simp [Config.rowMin, Config.rowMax]; omega)
  simpa using he

theorem frameOfBlock_flushFrames (p : Params) (fb : Vector Word 8) : ∀ f ∈ flushFrames p fb, FrameOfBlock p f := by
  have hy (y : Fin 8) : FrameOfBlock p (flushFrame p fb y) := by
    refine .inr ⟨_, _, encodeRow_valid (r := BitVec.ofNat 8 (y.val + 1)) ?_ ?_⟩ <;> simp <;> omega
  intro f hf
  simp only [flushFrames, List.mem_cons, List.not_mem_nil, or_false] at hf
  rcases hf with rfl | rfl | rfl | rfl | rfl | rfl | rfl | rfl <;> exact hy _

/-- The register byte of a flush's frame for row y is y + 1 (43_flush.md R141). -/
theorem flushFrames_reg (p : Params) (fb : Vector Word 8) (y : Fin 8) :
    ((flushFrames p fb)[y.val]'y.isLt)[0] = BitVec.ofNat 8 (y.val + 1) := by
  fin_cases y <;> rfl

/-- The register byte of INIT's frame k (44_lifecycle.md R161). -/
theorem initFrames_reg (p : Params) (v : Int) (k : Fin 13) :
    ((initFrames p v)[k.val]'k.isLt)[0] =
      [p.regDisplayTest, p.regDecodeMode, p.regScanLimit, p.regIntensity, p.regShutdown, 1, 2, 3, 4, 5, 6, 7, 8][k] := by
  fin_cases k <;> rfl

/-! ## How the parts of a command end -/

/-- A part of a command that hangs: its last request is never answered. -/
structure Hang (s t : State) : Prop where
  progress : ∃ u, Progress s u ∧ u.fb = t.fb ∧ t = { u with busy := true }
  lc       : t.lc = s.lc
  never    : ∃ k, s.answer k = .never ∧ t.trace.length = s.trace.length + k + 1

theorem Hang.after {s u t : State} (h : Progress s u) (hl : u.lc = s.lc) (h' : Hang u t) : Hang s t := by
  obtain ⟨v, hv, hf, rfl⟩ := h'.progress
  obtain ⟨k, hk, ht⟩ := h'.never
  refine ⟨⟨v, h.trans hv, hf, rfl⟩, h'.lc.trans hl, u.trace.length - s.trace.length + k, ?_, ?_⟩
  · rw [← h.answers, hk]
  · have := h.trace_le
    omega

/-- A run of frames leaves `LC`, `BUS_OPEN` and `FB` alone; it completes, is cut short, or hangs. -/
theorem sendFrames_progress {fs : List Frame} {s : State} (h : ∀ f ∈ fs, FrameOfBlock s.params f) :
    (∃ o u, sendFrames fs 0 s = .done o u ∧ Progress s u ∧ u.lc = s.lc ∧ u.busOpen = s.busOpen ∧ u.fb = s.fb) ∨
    (∃ t, sendFrames fs 0 s = .hung t ∧ Hang s t ∧ t.fb = s.fb) := by
  have cut {pre post : List Frame} {f : Frame} (he : fs = pre ++ f :: post) :
      Progress s ((s.afterFrames pre).issue (.write f)).spoilChips := by
    have hp : Progress s (s.afterFrames pre) := .afterFrames (fun g hg => h g (by simp [he, hg]))
    have hi : Progress (s.afterFrames pre) ((s.afterFrames pre).issue (.write f)) :=
      .issue (.inr (.inr (.inr ⟨f, rfl, h f (by simp [he])⟩)))
    exact (hp.trans hi).trans (.of_eq rfl rfl rfl rfl rfl rfl (fun _ => Chips.cellsOk_spoil _))
  rcases frames_fate fs s with ha | ⟨pre, f, post, he, ha, hn | ⟨n, hn, h8⟩⟩
  · exact .inl ⟨_, _, sendFrames_whole ha, .afterFrames h, rfl, rfl, rfl⟩
  · refine .inr ⟨{ ((s.afterFrames pre).issue (.write f)).spoilChips with busy := true },
      he ▸ sendFrames_never ha hn, ⟨⟨_, cut he, rfl, rfl⟩, rfl, pre.length, hn, ?_⟩, rfl⟩
    simp [Nat.add_assoc]
  · exact .inl ⟨_, _, he ▸ sendFrames_short ha hn h8, cut he, rfl, rfl, rfl⟩

theorem doFlush_progress (s : State) :
    (∃ o u, doFlush s = .done o u ∧ Progress s u ∧ u.lc = s.lc ∧ u.busOpen = s.busOpen ∧ u.fb = s.fb) ∨
    (∃ t, doFlush s = .hung t ∧ Hang s t ∧ t.fb = s.fb) := by
  rcases sendFrames_progress (frameOfBlock_flushFrames s.params s.fb) with ⟨o, u, he, hp, hl, hb, hf⟩ | ⟨t, he, hh⟩
  · left
    cases o with
    | none =>
      have hset : Progress u { u with chips := u.chips.settleRows u.params (flushFrames u.params u.fb) } :=
        .of_eq rfl rfl rfl rfl rfl rfl (Chips.cellsOk_settleRows _)
      exact ⟨none, _, by simp only [doFlush, he], hp.trans hset, hl, hb, hf⟩
    | some f => exact ⟨_, _, by rw [doFlush, he], hp, hl, hb, hf⟩
  · exact .inr ⟨t, by rw [doFlush, he], hh⟩

theorem closeBus_progress (s : State) :
    (∃ u, closeBus s = .done () u ∧ Progress s u ∧ u.lc = s.lc ∧ u.busOpen = false ∧ u.fb = s.fb) ∨
    (∃ t, closeBus s = .hung t ∧ Hang s t ∧ t.fb = s.fb) := by
  have hi : Progress s (s.issue .closeBus) := .issue (.inr (.inr (.inl rfl)))
  have hp : Progress s { s.issue .closeBus with busOpen := false } := hi.trans (.of_eq rfl rfl rfl rfl rfl rfl id)
  rcases answer_cases s 0 with hn | ⟨r, hr⟩
  · exact .inr ⟨_, closeBus_never hn, ⟨⟨_, hp, rfl, rfl⟩, rfl, 0, hn, by simp⟩, rfl⟩
  · exact .inl ⟨_, closeBus_given hr, hp, rfl, rfl, rfl⟩

/-! ## How a command ends -/

/-- `LC` is as it was, or moved as 10_state.md R24 lets this command move it, with `CODE = OK`. -/
abbrev LcMove (i : Instr) (s u : State) (e : ErrorCode) : Prop :=
  u.lc = s.lc ∨
  (((i.op = .init ∧ s.lc = .uninit ∧ u.lc = .ready) ∨ (i.op = .shutdown ∧ s.lc = .ready ∧ u.lc = .closed)) ∧ e = .ok)

/-- Every end a command can have: it answers in the state it reached, or it hangs. -/
inductive Ends (i : Instr) (s : State) : State → Prop where
  | answers {u : State} {e : ErrorCode} {f : Fields} (progress : Progress s u)
      (fb : i.op ∈ [Op.getpx, .flush, .bcast, .row] → u.fb = s.fb) (move : LcMove i s u e)
      (busOpen : (s.busOpen = true ↔ s.lc = .ready) → (u.busOpen = true ↔ u.lc = .ready)) :
      Ends i s (u.endWith e f)
  | hangs {t : State} (hang : Hang s t) (fb : i.op ∈ [Op.getpx, .flush, .bcast, .row] → t.fb = s.fb) : Ends i s t

/-- A command that answers without changing `LC` or `BUS_OPEN`. -/
theorem Ends.plain {i : Instr} {s u : State} {e : ErrorCode} {f : Fields} (hp : Progress s u)
    (hf : i.op ∈ [Op.getpx, .flush, .bcast, .row] → u.fb = s.fb) (hl : u.lc = s.lc) (hb : u.busOpen = s.busOpen) :
    Ends i s (u.endWith e f) :=
  .answers hp hf (.inl hl) (by rw [hl, hb]; exact id)

theorem abandonInit_ends {v : Int} {s u : State} {e : ErrorCode} {f : Fields} (hp : Progress s u) (hl : u.lc = s.lc)
    (hs : s.lc = .uninit) : Ends (.init v) s (abandonInit e f u) := by
  rcases closeBus_progress u with ⟨w, he, hw, hwl, hwb, -⟩ | ⟨t, he, hh, -⟩
  · simp only [abandonInit, he, raise_eq_endWith]
    exact .answers (hp.trans hw) (by simp [Instr.op]) (.inl (hwl.trans hl)) (by simp [hwb, hwl, hl, hs])
  · simp only [abandonInit, he]
    exact .hangs (.after hp hl hh) (by simp [Instr.op])

theorem sendAndRespond_ends {i : Instr} {s : State} {f : Frame} (hf : FrameOfBlock s.params f) :
    Ends i s (sendAndRespond f s) := by
  have hi : Progress s (s.issue (.write f)) := .issue (.inr (.inr (.inr ⟨f, rfl, hf⟩)))
  have hs : Progress s (s.issue (.write f)).spoilChips :=
    hi.trans (.of_eq rfl rfl rfl rfl rfl rfl (fun _ => Chips.cellsOk_spoil _))
  rcases answer_cases s 0 with hn | ⟨r, hr⟩
  · simp only [sendAndRespond, sendFrame_never hn]
    exact .hangs ⟨⟨_, hs, rfl, rfl⟩, rfl, 0, hn, by simp⟩ (fun _ => rfl)
  · by_cases h8 : r.accepts = 8
    · simp only [sendAndRespond, sendFrame_whole (accepts_iff.2 ⟨r, hr, h8⟩), respond_eq_endWith]
      exact .plain (hi.trans (.of_eq rfl rfl rfl rfl rfl rfl (Chips.cellsOk_latch f))) (fun _ => rfl) rfl rfl
    · simp only [sendAndRespond, sendFrame_short (accepts_iff.2 ⟨r, hr, rfl⟩) h8, raise_eq_endWith]
      exact .plain hs (fun _ => rfl) rfl rfl

theorem bringUp_ends {v : Int} {s : State} (hs : s.lc = .uninit) : Ends (.init v) s (bringUp v s.clearFb) := by
  have hc : Progress s s.clearFb := .of_eq rfl rfl rfl rfl rfl rfl id
  have ho : Progress s (s.clearFb.issue .openBus) := hc.trans (.issue (.inl rfl))
  rcases answer_cases s 0 with hn | ⟨r, hr⟩
  · simp only [bringUp, openBus_never (s := s.clearFb) hn]
    exact .hangs ⟨⟨_, ho, rfl, rfl⟩, rfl, 0, hn, by simp⟩ (by simp [Instr.op])
  cases hopen : r.opens with
  | false =>
    simp only [bringUp, openBus_no (s := s.clearFb) hr hopen, raise_eq_endWith]
    exact .answers ho (by simp [Instr.op]) (.inl rfl) id
  | true =>
    rcases answer_cases s 1 with hn | ⟨r1, hr1⟩
    · have hh : Hang s.opened { s.opened.issue (.configure 0 8 s.params.clockHz) with busy := true } :=
        ⟨⟨_, .issue (.inr (.inl rfl)), rfl, rfl⟩, rfl, 0, by simpa using hn, by simp⟩
      rw [bringUp_opens hr hopen, configureBus_never (s := s.opened) (by simpa using hn)]
      have hp : Progress s s.opened :=
        ⟨rfl, rfl, rfl, rfl, ⟨[.openBus], rfl, by simp [BusWord]⟩, fun k => by rw [answer_opened]; simp [State.opened], id⟩
      exact .hangs (.after hp rfl hh) (by simp [Instr.op])
    · have hp : Progress s s.configured :=
        ⟨rfl, rfl, rfl, rfl, ⟨[.openBus, .configure 0 8 s.params.clockHz], rfl, by simp [BusWord]⟩,
          fun k => by simp [State.configured, State.answer, Nat.add_assoc], id⟩
      rw [bringUp_configured hr hopen hr1]
      cases r1.rejects with
      | some p => exact abandonInit_ends hp rfl hs
      | none =>
        rcases sendFrames_progress (frameOfBlock_initFrames s.configured.params v) with
          ⟨o, u, he, hu, hl, hb, -⟩ | ⟨t, he, hh, -⟩
        · cases o with
          | some f =>
            simp only [sendInitFrames, he]
            exact abandonInit_ends (hp.trans hu) hl hs
          | none =>
            simp only [sendInitFrames, he, respond_eq_endWith]
            have hset : Progress u { u with
                lc := .ready, chips := u.chips.settleControl u.params (initFrames u.params v) } :=
              .of_eq rfl rfl rfl rfl rfl rfl (Chips.cellsOk_settleControl _)
            exact .answers ((hp.trans hu).trans hset) (by simp [Instr.op]) (.inr ⟨.inl ⟨rfl, hs, rfl⟩, rfl⟩)
              (fun _ => by simp [hb, State.configured])
        · simp only [sendInitFrames, he]
          exact .hangs (.after hp rfl hh) (by simp [Instr.op])

theorem closeDown_ends {s u : State} {o : Option ShortAt} (hp : Progress s u) (hl : u.lc = s.lc) (hs : s.lc = .ready) :
    Ends .shutdown s (closeDown o u) := by
  rcases closeBus_progress u with ⟨w, he, hw, -, hwb, -⟩ | ⟨t, he, hh, -⟩
  · have hc : Progress s { w with lc := .closed } := (hp.trans hw).trans (.of_eq rfl rfl rfl rfl rfl rfl id)
    simp only [closeDown, he]
    cases o <;> simp only [respond_eq_endWith] <;>
      exact .answers hc (by simp [Instr.op]) (.inr ⟨.inr ⟨rfl, hs, rfl⟩, rfl⟩) (fun _ => by simp [hwb])
  · simp only [closeDown, he]
    exact .hangs (.after hp hl hh) (by simp [Instr.op])

/-- Everything a command can do. -/
theorem exec_ends {i : Instr} {s t : State} (h : exec i s = .next t) : Ends i s t := by
  have stay {e : ErrorCode} {f : Fields} : Ends i s (s.endWith e f) := .plain (.refl s) (fun _ => rfl) rfl rfl
  cases i with
  | init v =>
    injection h with h
    subst h
    split
    · next hs => exact bringUp_ends hs
    · exact stay
  | setpx x y on =>
    injection h with h
    subst h
    split
    · exact .plain (.of_eq rfl rfl rfl rfl rfl rfl id) (by simp [Instr.op]) rfl rfl
    · exact stay
  | clear =>
    injection h with h
    subst h
    exact .plain (u := s.clearFb) (.of_eq rfl rfl rfl rfl rfl rfl id) (by simp [Instr.op]) rfl rfl
  | flush =>
    injection h with h
    subst h
    split
    · rcases doFlush_progress s with ⟨o, u, he, hp, hl, hb, hf⟩ | ⟨t, he, hh, hf⟩ <;> simp only [he]
      · cases o <;> exact .plain hp (fun _ => hf) hl hb
      · exact .hangs hh (fun _ => hf)
    · exact stay
  | shutdown =>
    injection h with h
    subst h
    split
    · next hs =>
      have hc : Progress s s.clearFb := .of_eq rfl rfl rfl rfl rfl rfl id
      rcases doFlush_progress s.clearFb with ⟨o, u, he, hp, hl, -, -⟩ | ⟨t, he, hh, -⟩ <;> simp only [he]
      · exact closeDown_ends (hc.trans hp) hl hs
      · exact .hangs (.after hc rfl hh) (by simp [Instr.op])
    · exact stay
  | getpx x y =>
    injection h with h
    subst h
    split <;> exact stay
  | bcast reg data =>
    injection h with h
    subst h
    split
    · exact sendAndRespond_ends (frameOfBlock_broadcast _ _ _)
    · exact stay
  | row r D =>
    injection h with h
    subst h
    split
    · split
      · next f hf => exact sendAndRespond_ends (.inr ⟨_, _, hf⟩)
      · exact stay
    · exact stay

end Sys2Proof.Machine
end

