-- ==== Sys2Proof/Laws/PerInstr.lean ====
section
/-! SUPPORT. Statements made of every command, one lemma per constructor. -/

namespace Sys2Proof.Laws.EncodedRow

/-- The encoder writes the command's own opcode and leaves every reserved bit of its format 0 (30_encoding.md R62, R65,
R69): its word selects the command's row of the opcode map, whatever the operands. -/
def Statement (i : Instr) : Prop :=
  ∃ r ∈ opcodeTable, r.op = i.op ∧ (encode i).1 &&& r.mask = r.pattern

theorem init (intens : Int) : Statement (.init intens) := by
  refine ⟨⟨.init, 0x10000000, 0xFFFFFF00⟩, by decide, rfl, ?_⟩
  apply BitVec.eq_of_getLsbD_eq
  intro i hi
  interval_cases i <;> simp [encode, byteAt]

theorem setpx (x y : Int) (on : Bool) : Statement (.setpx x y on) := by
  refine ⟨⟨.setpx, 0x20000000, 0xFFFE0000⟩, by decide, rfl, ?_⟩
  apply BitVec.eq_of_getLsbD_eq
  intro i hi
  interval_cases i <;> simp [encode, byteAt]

theorem clear : Statement .clear := ⟨⟨.clear, 0x30000000, 0xFFFFFFFF⟩, by decide, rfl, by decide⟩

theorem flush : Statement .flush := ⟨⟨.flush, 0x40000000, 0xFFFFFFFF⟩, by decide, rfl, by decide⟩

theorem shutdown : Statement .shutdown := ⟨⟨.shutdown, 0x50000000, 0xFFFFFFFF⟩, by decide, rfl, by decide⟩

theorem getpx (x y : Int) : Statement (.getpx x y) := by
  refine ⟨⟨.getpx, 0x60000000, 0xFFFF0000⟩, by decide, rfl, ?_⟩
  apply BitVec.eq_of_getLsbD_eq
  intro i hi
  interval_cases i <;> simp [encode, byteAt]

theorem bcast (reg data : Byte) : Statement (.bcast reg data) := by
  refine ⟨⟨.bcast, 0x70000000, 0xFFFF0000⟩, by decide, rfl, ?_⟩
  apply BitVec.eq_of_getLsbD_eq
  intro i hi
  interval_cases i <;> simp [encode, byteAt]

theorem row (rowSel : Byte) (devData : Vector Byte 4) : Statement (.row rowSel devData) := by
  refine ⟨⟨.row, 0x80000000, 0xFFFFFF00⟩, by decide, rfl, ?_⟩
  apply BitVec.eq_of_getLsbD_eq
  intro i hi
  interval_cases i <;> simp [encode, byteAt]

end Sys2Proof.Laws.EncodedRow
end

