-- ==== Sys2Proof/Tests/Slice0.lean ====
section
/-! SUPPORT. Tests whose expected values are those of 95_test_vectors.md (or written out from the encodings of
30_encoding.md R62), and for every statement with hypotheses a concrete case that meets them. -/

namespace Sys2Proof.Machine

/-! ## Small states -/

/-- An answer in full. -/
def whole : Answer := .given { opens := true, rejects := none, accepts := 8 }

/-- An answer to a `WRITE` with a count. -/
def taking (n : Fin 9) : Answer := .given { opens := true, rejects := none, accepts := n }

/-- A block after reset whose transport gives these answers. -/
def fresh (answers : List Answer) : State := { State.reset with answers := answers }

/-- A READY block whose transport gives these answers. -/
def ready (answers : List Answer) : State :=
  { State.reset with lc := .ready, busOpen := true, resp := 0x00020000, answers := answers }

/-- A READY block whose chips a short write left unknown. -/
def doubted (answers : List Answer) : State :=
  { ready answers with chips := { known := [], epoch := 1, rowsDoubtful := true, controlDoubtful := true } }

/-- A CLOSED block. -/
def closed : State := { State.reset with lc := .closed, resp := 0x00040000 }

/-- `RESP` after one command on the port. -/
def respAfter (s : State) (cmd arg : Word) : Option Word :=
  match step (s.offer cmd arg) with
  | .next t => some t.resp
  | _ => none

/-- The bus requests of one command on the port. -/
def requestsOf (s : State) (cmd arg : Word) : Option (List BusRequest) :=
  match step (s.offer cmd arg) with
  | .next t => some t.trace
  | _ => none

/-- The framebuffer, `LC` and `BUS_OPEN` after one command on the port. -/
def stateAfter (s : State) (cmd arg : Word) : Option (Vector Word 8 × Lifecycle × Bool) :=
  match step (s.offer cmd arg) with
  | .next t => some (t.fb, t.lc, t.busOpen)
  | _ => none

/-! ## WellFormed: each check refuses an ill-formed command (30_encoding.md R69) -/

theorem test_intensity_above_refused : Instr.check (.init 128) = some .intensity := by decide
theorem test_intensity_below_refused : Instr.check (.init (-129)) = some .intensity := by decide
theorem test_setpx_column_refused : Instr.check (.setpx 128 0 true) = some .column := by decide
theorem test_setpx_row_refused : Instr.check (.setpx 0 (-129) true) = some .row := by decide
theorem test_getpx_column_refused : Instr.check (.getpx (-129) 0) = some .column := by decide
theorem test_getpx_row_refused : Instr.check (.getpx 0 128) = some .row := by decide

/-! ## Decoding, each word written out bit by bit from the formats of 30_encoding.md R62 -/

/-- Format I: OPC 0001, CMD[27:8] = 0, INTENS = 11111111. -/
theorem test_decode_init : decode 0b00010000000000000000000011111111 0 = .ok (.init (-1)) := by decide
/-- Format P: OPC 0010, CMD[27:17] = 0, ON, Y = 10000000, X = 01111111. -/
theorem test_decode_setpx : decode 0b00100000000000011000000001111111 0 = .ok (.setpx 127 (-128) true) := by decide
/-- Format N: OPC 0011, the rest 0. -/
theorem test_decode_clear : decode 0b00110000000000000000000000000000 0xFFFFFFFF = .ok .clear := by decide
/-- Format N: OPC 0100. -/
theorem test_decode_flush : decode 0b01000000000000000000000000000000 0 = .ok .flush := by decide
/-- Format N: OPC 0101. -/
theorem test_decode_shutdown : decode 0b01010000000000000000000000000000 0 = .ok .shutdown := by decide
/-- Format Q: OPC 0110, CMD[27:16] = 0, Y = 00000010, X = 00000101. -/
theorem test_decode_getpx : decode 0b01100000000000000000001000000101 0 = .ok (.getpx 5 2) := by decide
/-- Format B: OPC 0111, CMD[27:16] = 0, REG = 11111111, DATA = 10000000. -/
theorem test_decode_bcast : decode 0b01110000000000001111111110000000 0 = .ok (.bcast 0xFF 0x80) := by decide
/-- Format R: OPC 1000, CMD[27:8] = 0, ROWSEL = 00000011; DEVDATA[3] in ARG[31:24]. -/
theorem test_decode_row :
    decode 0b10000000000000000000000000000011 0xDDCCBBAA = .ok (.row 3 #v[0xAA, 0xBB, 0xCC, 0xDD]) := by
  decide

/-- The illegal words of 95_test_vectors.md section 2.1: reserved opcodes. -/
theorem test_decode_reserved_opcode :
    decode 0x00000000 0 = .error .reservedOpcode ∧ decode 0x90000000 0 = .error .reservedOpcode ∧
    decode 0xF0000000 0 = .error .reservedOpcode ∧ decode 0xFFFFFFFF 0 = .error .reservedOpcode := by
  decide

/-- The illegal words of 95_test_vectors.md section 2.1: a reserved bit of each format. -/
theorem test_decode_reserved_bit :
    decode 0x10000100 0 = .error .reservedBit ∧ decode 0x20020205 0 = .error .reservedBit ∧
    decode 0x30000001 0 = .error .reservedBit ∧ decode 0x48000000 0 = .error .reservedBit ∧
    decode 0x60010205 0 = .error .reservedBit ∧ decode 0x7001000F 0 = .error .reservedBit ∧
    decode 0x80000100 0 = .error .reservedBit := by
  decide

/-- The numbering of spec/opcode_table.json: `ARG` is bits 63..32. -/
theorem test_table_word_row :
    decodeTableWord 64 0xDDCCBBAA80000003 = some (.row 3 #v[0xAA, 0xBB, 0xCC, 0xDD]) := by
  decide

/-- 95_test_vectors.md section 2.2. -/
theorem test_assemble_row :
    assembleLine "ROW 3, 0xAA, 0xBB, 0xCC, 0xDD".toList = some (0x80000003, 0xDDCCBBAA) := by
  decide

/-- 95_test_vectors.md section 2.2. -/
theorem test_assemble_setpx : assembleLine "SETPX 127, -128, 1".toList = some (0x2001807F, 0) := by decide

/-- 30_encoding.md R69: "an assembler refuses any other value". -/
theorem test_assemble_refuses :
    assembleLine "BCAST 0x0A, 256".toList = none ∧ assembleLine "SETPX 0, 0, 2".toList = none ∧
    assembleLine "INIT 128".toList = none := by
  decide

/-! ## Frames and packing (95_test_vectors.md sections 2.3 and 2.5) -/

theorem test_encode_row :
    encodeRow .farthestFirst 3 #v[0xAA, 0xBB, 0xCC, 0xDD] = some #v[3, 0xDD, 3, 0xCC, 3, 0xBB, 3, 0xAA] ∧
    encodeRow .nearestFirst 3 #v[0xAA, 0xBB, 0xCC, 0xDD] = some #v[3, 0xAA, 3, 0xBB, 3, 0xCC, 3, 0xDD] := by
  decide

theorem test_pack :
    packRow .msbLeft 0x12345678 = #v[0x1E, 0x6A, 0x2C, 0x48] ∧
    packRow .lsbLeft 0x12345678 = #v[0x78, 0x56, 0x34, 0x12] := by
  decide

/-! ## Commands: at most two each -/

/-- P1 command 1, and the lifecycle it leaves. -/
theorem test_init :
    respAfter (fresh (List.replicate 15 whole)) 0x10000004 0 = some 0x00020000 ∧
    stateAfter (fresh (List.replicate 15 whole)) 0x10000004 0 = some (Vector.replicate 8 0, .ready, true) := by
  decide

/-- 95_test_vectors.md section 2.7: the write of step 3 answers 0 (INIT 20). -/
theorem test_init_short :
    respAfter (fresh (List.replicate 5 whole ++ [taking 0, whole])) 0x10000014 0 = some 0x0A000335 ∧
    requestsOf (fresh (List.replicate 5 whole ++ [taking 0, whole])) 0x10000014 0 =
      some [.openBus, .configure 0 8 10000000, .write (encodeBroadcast 0x0F 0), .write (encodeBroadcast 0x09 0),
        .write (encodeBroadcast 0x0B 7), .write (encodeBroadcast 0x0A 0x0F), .closeBus] := by
  decide

/-- 95_test_vectors.md section 2.4: a cell, and the row of a corner cell. -/
theorem test_setpx :
    stateAfter (ready []) 0x20010205 0 = some (#v[0, 0, 0x20, 0, 0, 0, 0, 0], .ready, true) ∧
    stateAfter closed 0x2001071F 0 = some (#v[0, 0, 0, 0, 0, 0, 0, 0x80000000], .closed, false) := by
  decide

/-- 95_test_vectors.md section 2.4: `SETPX -1, 0, 1` writes nothing and answers `OK`. -/
theorem test_setpx_outside :
    stateAfter (ready []) 0x200100FF 0 = some (Vector.replicate 8 0, .ready, true) ∧
    respAfter (ready []) 0x200100FF 0 = some 0x00020000 := by
  decide

theorem test_getpx :
    respAfter ((ready []).setCell 5 2 true) 0x60000205 0 = some 0x00030000 ∧
    respAfter ((ready []).setCell 5 2 true) 0x60000206 0 = some 0x00020000 := by
  decide

theorem test_getpx_outside :
    respAfter (ready []) 0x60000020 0 = some 0x00020006 ∧ respAfter (fresh []) 0x60000800 0 = some 0x00000006 := by
  decide

theorem test_clear : stateAfter ((ready []).setCell 5 2 true) 0x30000000 0 = some (Vector.replicate 8 0, .ready, true) := by
  decide

/-- 95_test_vectors.md section 2.6, second line. -/
theorem test_flush :
    requestsOf ((ready (List.replicate 8 whole)).setCell 5 2 true) 0x40000000 0 =
      some [.write #v[1, 0, 1, 0, 1, 0, 1, 0], .write #v[2, 0, 2, 0, 2, 0, 2, 0], .write #v[3, 0, 3, 0, 3, 0, 3, 4],
        .write #v[4, 0, 4, 0, 4, 0, 4, 0], .write #v[5, 0, 5, 0, 5, 0, 5, 0], .write #v[6, 0, 6, 0, 6, 0, 6, 0],
        .write #v[7, 0, 7, 0, 7, 0, 7, 0], .write #v[8, 0, 8, 0, 8, 0, 8, 0]] := by
  decide

/-- P2 command 8: row 5's write answers 2. -/
theorem test_flush_short : respAfter (ready (List.replicate 5 whole ++ [taking 2])) 0x40000000 0 = some 0x06022503 := by
  decide

theorem test_shutdown :
    respAfter (ready (List.replicate 9 whole)) 0x50000000 0 = some 0x00040000 ∧
    stateAfter ((ready (List.replicate 9 whole)).setCell 5 2 true) 0x50000000 0 =
      some (Vector.replicate 8 0, .closed, false) := by
  decide

/-- 95_test_vectors.md section 2.8: row 2's write answers 3. -/
theorem test_shutdown_logged :
    respAfter (ready [whole, whole, taking 3, whole]) 0x50000000 0 = some 0x030C3230 := by
  decide

theorem test_bcast :
    requestsOf (ready [whole]) 0x70000A08 0 = some [.write #v[0x0A, 8, 0x0A, 8, 0x0A, 8, 0x0A, 8]] ∧
    respAfter (ready [taking 7]) 0x70000A08 0 = some 0x0A027003 := by
  decide

theorem test_row :
    requestsOf (ready [whole]) 0x80000008 0x04030201 = some [.write #v[8, 4, 8, 3, 8, 2, 8, 1]] ∧
    respAfter (ready [taking 5]) 0x80000003 0xDDCCBBAA = some 0x03025003 := by
  decide

/-- 95_test_vectors.md section 2.9: decoding before the state, the state before the operand. -/
theorem test_row_priority :
    respAfter closed 0x80000100 0 = some 0x00040008 ∧ respAfter (fresh []) 0x80000000 0 = some 0x00000007 ∧
    respAfter (ready []) 0x80000009 0 = some 0x00020004 := by
  decide

/-! ## Witnesses: concrete cases that meet the hypotheses of the statements -/

theorem witness_EncodedCommandsDecode :
    Instr.WellFormed (.init (-128)) ∧ Instr.WellFormed (.init 127) ∧ Instr.WellFormed (.setpx (-128) 127 true) ∧
    Instr.WellFormed (.getpx 127 (-128)) ∧ Instr.WellFormed .clear ∧ Instr.WellFormed .flush ∧
    Instr.WellFormed .shutdown ∧ Instr.WellFormed (.bcast 255 255) ∧
    Instr.WellFormed (.row 255 #v[0, 255, 1, 128]) := by
  decide

/-- For `DecodedWordsReencode`, `OpcodeMapSelectsOneRow` and `OperandsAreRead`: a word of each opcode that decodes. -/
theorem witness_DecodedWords :
    decode 0x100000FF 7 = .ok (.init (-1)) ∧ decode 0x2001807F 7 = .ok (.setpx 127 (-128) true) ∧
    decode 0x30000000 7 = .ok .clear ∧ decode 0x40000000 7 = .ok .flush ∧ decode 0x50000000 7 = .ok .shutdown ∧
    decode 0x6000807F 7 = .ok (.getpx 127 (-128)) ∧ decode 0x7000FF80 7 = .ok (.bcast 0xFF 0x80) ∧
    decode 0x800000FF 0xFF000000 = .ok (.row 255 #v[0, 0, 0, 255]) := by
  decide

/-- The lowest and the highest reserved bit of every format, and the reserved opcodes at both ends. -/
theorem witness_ReservedWordsAreRefused :
    ReservedWord 0x00000000 ∧ ReservedWord 0x90000000 ∧ ReservedWord 0xF0000000 ∧
    ReservedWord 0x10000100 ∧ ReservedWord 0x18000000 ∧ ReservedWord 0x20020000 ∧ ReservedWord 0x28000000 ∧
    ReservedWord 0x30000001 ∧ ReservedWord 0x38000000 ∧ ReservedWord 0x40000001 ∧ ReservedWord 0x58000000 ∧
    ReservedWord 0x60010000 ∧ ReservedWord 0x68000000 ∧ ReservedWord 0x70010000 ∧ ReservedWord 0x78000000 ∧
    ReservedWord 0x80000100 ∧ ReservedWord 0x88000000 := by
  unfold ReservedWord
  refine ⟨?_, ?_, ?_, ?_, ?_, ?_, ?_, ?_, ?_, ?_, ?_, ?_, ?_, ?_, ?_, ?_, ?_⟩ <;> decide

theorem witness_ArgOnlyMattersToRow :
    opc 0x70000A08 ≠ 8 ∧ decode 0x80000001 0x04030201 = .ok (.row 1 #v[1, 2, 3, 4]) := by
  decide

/-- For `RowFramePlacesDeviceData`, `RowFrameReversesDevices` and `BroadcastEqualsUniformRow`. -/
theorem witness_RowSelectors :
    (((0 : Int) < 1 ∨ (0 : Int) > 8) ∧ ((9 : Int) < 1 ∨ (9 : Int) > 8)) ∧
    ((1 : Int) ≤ 1 ∧ (1 : Int) ≤ 8) ∧ ((1 : Int) ≤ 8 ∧ (8 : Int) ≤ 8) ∧
    (1 ≤ (1 : Byte).toNat ∧ (1 : Byte).toNat ≤ 8) ∧ (1 ≤ (8 : Byte).toNat ∧ (8 : Byte).toNat ≤ 8) := by
  decide

/-- For the second part of `PackedBitIsCell`: only a corner cell on. -/
theorem witness_PackedBitIsCell :
    ∀ x' y', ((ready []).setCell 31 7 true).cell x' y' = true ↔ x' = 31 ∧ y' = 7 := by
  decide +kernel

theorem witness_IntensityIsClamped :
    clamp (-1) = 0 ∧ clamp 0 = 0 ∧ clamp 15 = 15 ∧ clamp 16 = 15 ∧ clamp 127 = 15 ∧ clamp (-128) = 0 := by
  decide

/-- A port with a command on it, idle. -/
def offered (cmd arg : Word) : State := { ready [whole] with inbox := [.command cmd arg, .reset] }

theorem witness_StepRunsDecodedCommand :
    (offered 0x70000A08 0).busy = false ∧ (offered 0x70000A08 0).inbox = .command 0x70000A08 0 :: [.reset] ∧
    decode 0x70000A08 0 = .ok (.bcast 0x0A 0x08) := by
  decide

theorem witness_PlacedWordRunsNext : decodeTableWord 32 0x70000A08 = some (.bcast 0x0A 0x08) := by decide

theorem witness_IllegalWordAnswers :
    (offered 0x48000000 5).busy = false ∧ (offered 0x48000000 5).inbox = .command 0x48000000 5 :: [.reset] ∧
    ReservedWord 0x48000000 := by
  unfold ReservedWord
  decide

/-- A block that waits for ever, the host still offering these. -/
def waiting (inbox : List HostEvent) : State := { ready [] with busy := true, inbox := inbox }

theorem witness_BusyBlockTakesNoCommand :
    (waiting [.command 0x30000000 0]).busy = true ∧ HostEvent.reset ∉ (waiting [.command 0x30000000 0]).inbox := by
  decide

theorem witness_ResetSetsStateVector :
    (waiting [.reset]).inbox = .reset :: [] ∧
    State.inbox { closed with inbox := [.reset, .command 0x30000000 0] } = .reset :: [.command 0x30000000 0] := by
  decide

theorem witness_ResetPassesWaitingCommands :
    (waiting [.command 0x30000000 0, .reset]).busy = true ∧ HostEvent.reset ∉ [HostEvent.command 0x30000000 0] ∧
    (waiting [.command 0x30000000 0, .reset]).inbox = [.command 0x30000000 0] ++ .reset :: [] := by
  decide

theorem witness_IdleBlockStays : (ready []).busy = false ∧ (ready []).inbox = [] := by decide

/-- For the second part of `GetPixelReadsOneCell`. -/
theorem witness_GetPixelReadsOneCell :
    ∀ c ∈ ([(-1, 0), (32, 7), (0, -1), (31, 8)] : List (Int × Int)),
      ¬ (0 ≤ c.1 ∧ c.1 < 32 ∧ 0 ≤ c.2 ∧ c.2 < 8) := by
  decide

/-- For `BroadcastSendsOneFrame`. -/
theorem witness_BroadcastSendsOneFrame :
    (ready [whole]).lc = .ready ∧ (ready [whole]).Accepts 0 8 ∧ ((7 : Fin 9) ≠ 8 ∧ (ready [taking 7]).Accepts 0 7) ∧
    ((0 : Fin 9) ≠ 8 ∧ (ready [taking 0]).Accepts 0 0) := by
  decide

theorem witness_RowSendsOneFrame :
    (ready [whole]).lc = .ready ∧ (ready [whole]).params.chainOrder = .farthestFirst ∧
    (#v[8, 4, 8, 3, 8, 2, 8, 1] : Frame) =
      (match (ready [whole]).params.chainOrder with
        | .farthestFirst => #v[8, (#v[1, 2, 3, 4] : Vector Byte 4)[3], 8, (#v[1, 2, 3, 4] : Vector Byte 4)[2], 8,
            (#v[1, 2, 3, 4] : Vector Byte 4)[1], 8, (#v[1, 2, 3, 4] : Vector Byte 4)[0]]
        | .nearestFirst => #v[8, (#v[1, 2, 3, 4] : Vector Byte 4)[0], 8, (#v[1, 2, 3, 4] : Vector Byte 4)[1], 8,
            (#v[1, 2, 3, 4] : Vector Byte 4)[2], 8, (#v[1, 2, 3, 4] : Vector Byte 4)[3]]) ∧
    (ready [whole]).Accepts 0 8 ∧ (ready [taking 7]).Accepts 0 7 := by
  decide

theorem witness_RowRefusesInvalidSelector :
    (ready []).lc = .ready ∧ ∀ r ∈ ([0, 9, 255] : List Byte), r.toNat < 1 ∨ r.toNat > 8 := by
  decide

/-- For `FlushSendsEightFrames`, `FlushShowsFramebuffer` (from unknown chips too), `ShutdownBlanksAndCloses` and
`ShutdownBlanksPanel`. -/
theorem witness_WholeFlush :
    ∀ s ∈ [ready (List.replicate 9 whole), doubted (List.replicate 9 whole)],
      s.lc = .ready ∧ s.AcceptsAll 0 8 ∧ s.Answers 8 := by
  decide

/-- For `ShortFlushStopsAtRow` and `ShutdownClosesDespiteShortWrite`: the first row and the last. -/
theorem witness_ShortFlush :
    ((ready [taking 0, whole]).AcceptsAll 0 (0 : Fin 8).val ∧ (ready [taking 0, whole]).Accepts (0 : Fin 8).val 0 ∧
      (ready [taking 0, whole]).Answers 1 ∧ (0 : Fin 9) ≠ 8) ∧
    ((ready (List.replicate 7 whole ++ [taking 7, whole])).AcceptsAll 0 (7 : Fin 8).val ∧
      (ready (List.replicate 7 whole ++ [taking 7, whole])).Accepts (7 : Fin 8).val 7 ∧
      (ready (List.replicate 7 whole ++ [taking 7, whole])).Answers 8 ∧ (7 : Fin 9) ≠ 8) := by
  decide

theorem witness_UnansweredFlushHangs :
    ((ready [.never]).lc = .ready ∧ (ready [.never]).AcceptsAll 0 (0 : Fin 8).val ∧
      (ready [.never]).answer (0 : Fin 8).val = .never ∧ HostEvent.reset ∉ (ready [.never]).inbox) ∧
    ((ready (List.replicate 7 whole ++ [.never])).AcceptsAll 0 (7 : Fin 8).val ∧
      (ready (List.replicate 7 whole ++ [.never])).answer (7 : Fin 8).val = .never) := by
  decide

theorem witness_ClearThenFlushSendsBlankRows :
    (ready (List.replicate 8 whole)).lc = .ready ∧ (ready (List.replicate 8 whole)).AcceptsAll 0 8 ∧
    ∃ t, exec .clear (ready (List.replicate 8 whole)) = .next t :=
  ⟨by decide, by decide, _, rfl⟩

/-- For `InitBringsBlockUp` and `InitMakesPanelBlankAndOn`. -/
theorem witness_WholeInit :
    (fresh (List.replicate 15 whole)).lc = .uninit ∧
    (fresh (List.replicate 15 whole)).answer 0 = .given { opens := true, rejects := none, accepts := 8 } ∧
    (fresh (List.replicate 15 whole)).answer 1 = .given { opens := true, rejects := none, accepts := 8 } ∧
    (fresh (List.replicate 15 whole)).AcceptsAll 2 13 ∧ DistinctControl (fresh (List.replicate 15 whole)).params ∧
    (fresh (List.replicate 15 whole)).chips.rowsDoubtful = false := by
  decide

theorem witness_InitFailsBeforeFrames :
    (fresh [.given { opens := false, rejects := none, accepts := 0 }]).answer 0 =
      .given { opens := false, rejects := none, accepts := 0 } ∧
    ∀ p ∈ [CfgParam.mode, .wordSize, .clock],
      let s := fresh [whole, .given { opens := true, rejects := some p, accepts := 0 }, whole]
      s.lc = .uninit ∧ s.answer 1 = .given { opens := true, rejects := some p, accepts := 0 } ∧ s.Answers 2 := by
  decide

/-- The first frame of INIT short, and the last. -/
theorem witness_InitFailsAtShortFrame :
    let s := fresh [whole, whole, taking 0, whole]
    let u := fresh (List.replicate 14 whole ++ [taking 7, whole])
    (s.lc = .uninit ∧ s.AcceptsAll 2 (0 : Fin 13).val ∧ s.Accepts 2 0 ∧ s.Answers 3 ∧ (0 : Fin 9) ≠ 8) ∧
    (u.lc = .uninit ∧ u.AcceptsAll 2 (12 : Fin 13).val ∧ u.Accepts 14 7 ∧ u.Answers 15 ∧ (7 : Fin 9) ≠ 8) := by
  decide

theorem witness_WrongStateAnswersBadState :
    NotAdmitted (.init 20) .ready ∧ NotAdmitted (.init 20) .closed ∧ NotAdmitted .flush .uninit ∧
    NotAdmitted .shutdown .closed ∧ NotAdmitted (.bcast 0 0) .uninit ∧ NotAdmitted (.row 9 #v[0, 0, 0, 0]) .closed := by
  unfold NotAdmitted
  decide

/-- For `LifecycleOnlyMovesForward`: both moves happen. -/
theorem witness_LifecycleOnlyMovesForward :
    (∃ t, exec (.init 4) (fresh (List.replicate 15 whole)) = .next t ∧ t.lc ≠ .uninit) ∧
    (∃ t, exec .shutdown (ready (List.replicate 9 whole)) = .next t ∧ t.lc ≠ .ready) :=
  ⟨⟨_, rfl, by decide⟩, ⟨_, rfl, by decide⟩⟩

/-- For `ClosedIsTerminal`, `BusCarriesOnlyWholeFrames` and `BlockNeverReadsChips`: a step of a CLOSED block, on a command
and on a reset. -/
theorem witness_ClosedIsTerminal :
    ∃ t u, step { closed with inbox := [.command 0x10000004 0] } = .next t ∧ t.lc = .closed ∧
      step { closed with inbox := [.reset] } = .next u ∧ u.lc = .uninit :=
  ⟨_, _, rfl, by decide, rfl, by decide⟩

/-- For `OnlyFourCommandsWriteFramebuffer` and `OneResponsePerCommand`: a command that ends, and one that never does. -/
theorem witness_CommandEnds :
    (∃ t, exec .flush (ready (List.replicate 8 whole)) = .next t ∧ t.busy = false) ∧
    (∃ t, exec .flush (ready [.never]) = .next t ∧ t.busy = true) :=
  ⟨⟨_, rfl, by decide⟩, ⟨_, rfl, by decide⟩⟩

/-- For `StepKeepsInvariant`: a state with the invariant and a step of it. -/
theorem witness_StepKeepsInvariant :
    (offered 0x70000A08 0).Inv ∧ ∃ t, step (offered 0x70000A08 0) = .next t ∧ t.responses = [0x00020000] :=
  ⟨⟨by decide, by decide, by decide, by decide, by decide, by decide, by decide⟩, _, rfl, by decide⟩

/-- The three clauses of `WholeFrameWritesOneRegister`: the first and last row register, a control register, and an unnamed
address beside a known register. -/
theorem witness_WholeFrameWritesOneRegister :
    (ready [whole]).lc = .ready ∧ (ready [whole]).Accepts 0 8 ∧ (ready [whole]).chips.doubtful = false ∧
    (∃ t u, exec (.row 1 #v[1, 2, 3, 4]) (ready [whole]) = .next t ∧ exec (.row 8 #v[1, 2, 3, 4]) (ready [whole]) = .next u) ∧
    regClass Config.defaults 0x0A ≠ .unnamed ∧ regClass Config.defaults 0x00 = .unnamed ∧
    Memory.read [(chipAddress 3 8, (0x5A : Byte))] (chipAddress 3 8) = some 0x5A ∧
    regClass Config.defaults 8 ≠ .unnamed :=
  ⟨by decide, by decide, by decide, ⟨_, _, rfl, rfl⟩, by decide, by decide, by decide, by decide⟩

/-- A short row of FLUSH and of SHUTDOWN, the first and the last. -/
theorem witness_ShortWriteLeavesChipsUnknown :
    (∃ t, (ready [taking 0]).lc = .ready ∧ (ready [taking 0]).AcceptsAll 0 (0 : Fin 8).val ∧
      (ready [taking 0]).Accepts (0 : Fin 8).val 0 ∧ exec .flush (ready [taking 0]) = .next t) ∧
    (∃ t, (ready (List.replicate 7 whole ++ [taking 7, whole])).AcceptsAll 0 (7 : Fin 8).val ∧
      (ready (List.replicate 7 whole ++ [taking 7, whole])).Accepts (7 : Fin 8).val 7 ∧
      exec .shutdown (ready (List.replicate 7 whole ++ [taking 7, whole])) = .next t) ∧ (0 : Fin 9) ≠ 8 ∧ (7 : Fin 9) ≠ 8 :=
  ⟨⟨_, by decide, by decide, by decide, rfl⟩, ⟨_, by decide, by decide, rfl⟩, by decide, by decide⟩

/-- For `ShortWriteLeavesChipsUnknown`: a short BCAST, and a short ROW of the first row and of the last. -/
theorem witness_ShortFrameLeavesChipsUnknown :
    ∃ t u w, (ready [taking 0]).lc = .ready ∧ (ready [taking 0]).Accepts 0 0 ∧
      exec (.bcast 0x0A 8) (ready [taking 0]) = .next t ∧
      (1 ≤ (1 : Byte).toNat ∧ (1 : Byte).toNat ≤ 8 ∧ exec (.row 1 #v[1, 2, 3, 4]) (ready [taking 0]) = .next u) ∧
      (1 ≤ (8 : Byte).toNat ∧ (8 : Byte).toNat ≤ 8 ∧ exec (.row 8 #v[1, 2, 3, 4]) (ready [taking 0]) = .next w) :=
  ⟨_, _, _, by decide, by decide, rfl, ⟨by decide, by decide, rfl⟩, by decide, by decide, rfl⟩

/-- For `ShortWriteLeavesChipsUnknown`: INIT's first frame short, and its last. -/
theorem witness_ShortInitLeavesChipsUnknown :
    (∃ t, (fresh [whole, whole, taking 0, whole]).lc = .uninit ∧
      (fresh [whole, whole, taking 0, whole]).answer 0 = .given { opens := true, rejects := none, accepts := 8 } ∧
      (fresh [whole, whole, taking 0, whole]).answer 1 = .given { opens := true, rejects := none, accepts := 8 } ∧
      (fresh [whole, whole, taking 0, whole]).AcceptsAll 2 (0 : Fin 13).val ∧
      (fresh [whole, whole, taking 0, whole]).Accepts 2 0 ∧
      exec (.init 4) (fresh [whole, whole, taking 0, whole]) = .next t) ∧
    (∃ t, (fresh (List.replicate 14 whole ++ [taking 7, whole])).AcceptsAll 2 (12 : Fin 13).val ∧
      (fresh (List.replicate 14 whole ++ [taking 7, whole])).Accepts 14 7 ∧
      exec (.init 4) (fresh (List.replicate 14 whole ++ [taking 7, whole])) = .next t) :=
  ⟨⟨_, by decide, by decide, by decide, by decide, by decide, rfl⟩, ⟨_, by decide, by decide, rfl⟩⟩

/-- For `DoubtEndsWithCompleteSequence`: a flush and a shutdown that end the doubt about the rows, an INIT that ends the
doubt about the control registers. -/
theorem witness_DoubtEndsWithCompleteSequence :
    (∃ t, exec .flush (doubted (List.replicate 8 whole)) = .next t ∧ t.chips.rowsDoubtful = false) ∧
    (∃ t, exec .shutdown (doubted (List.replicate 9 whole)) = .next t ∧ t.chips.rowsDoubtful = false) ∧
    (∃ t, exec (.init 4) { doubted (List.replicate 15 whole) with lc := .uninit, busOpen := false } = .next t ∧
      t.chips.controlDoubtful = false) :=
  ⟨⟨_, rfl, by decide +kernel⟩, ⟨_, rfl, by decide +kernel⟩, ⟨_, rfl, by decide +kernel⟩⟩

/-- For the second part of `DoubtEndsWithCompleteSequence`: chips in doubt, the first and the last row register, and a
control register. -/
theorem witness_DoubtfulRegisters :
    (doubted []).chips.rowsDoubtful = true ∧ (doubted []).chips.controlDoubtful = true ∧
    regClass (doubted []).params 1 = .row ∧ regClass (doubted []).params 8 = .row ∧
    regClass (doubted []).params 0x0F = .control := by
  decide

theorem witness_CompleteSequencesKeepOtherRegisters :
    (ready (List.replicate 9 whole)).chips.doubtful = false ∧
    (∃ t, exec .shutdown (ready (List.replicate 9 whole)) = .next t) ∧
    (∃ t, exec (.init 4) (fresh (List.replicate 15 whole)) = .next t ∧ t.lc = .ready) ∧
    (0x0D : Byte) ∉ [Config.defaults.regDisplayTest, Config.defaults.regDecodeMode, Config.defaults.regScanLimit,
      Config.defaults.regIntensity, Config.defaults.regShutdown] :=
  ⟨by decide, ⟨_, rfl⟩, ⟨_, rfl, by decide⟩, by decide⟩

end Sys2Proof.Machine
end

/-! # The state as a whole (10_state.md): the invariant, the lifecycle, the framebuffer's writers, the unread chips -/

namespace Sys2Proof.Machine

/-! ## The invariant -/

/-- R25's condition (10_state.md), asked here of a busy block too: a command starts busy and must end with it. -/
abbrev OpenWhenReady (s : State) : Prop := s.busOpen = true ↔ s.lc = .ready

/-- Codes 9..15 are never produced (60_exceptions.md R191). -/
theorem ErrorCode.number_le (e : ErrorCode) : e.number.toNat ≤ 8 := by
  cases e <;> decide

theorem State.Inv.cellsOk {s : State} (h : s.Inv) : CellsOk s.chips.known := ⟨h.chips_wf, h.chips_bound⟩

/-- A command that ends writes a well-formed response word, so only `BUS_OPEN`, the parameters and the chips matter. -/
theorem inv_endWith {s : State} (e : ErrorCode) (f : Fields) (hb : OpenWhenReady s) (hp : s.params.wf)
    (hc : CellsOk s.chips.known) : (s.endWith e f).Inv where
  busOpen_iff_ready := fun _ => hb
  resp_lc := by simp
  resp_code := by simpa using e.number_le
  resp_reserved := by simp
  params_wf := hp
  chips_wf := hc.1
  chips_bound := hc.2

/-- A busy block keeps the invariant where `RESP`, `LC` and the parameters stay and the chips' cells stay canonical. -/
theorem State.Inv.of_busy {s t : State} (h : s.Inv) (hb : t.busy = true) (hr : t.resp = s.resp) (hl : t.lc = s.lc)
    (hp : t.params = s.params) (hc : CellsOk t.chips.known) : t.Inv where
  busOpen_iff_ready := fun hf => absurd (hb.symm.trans hf) (by decide)
  resp_lc := by rw [hr, hl]; exact h.resp_lc
  resp_code := by rw [hr]; exact h.resp_code
  resp_reserved := by rw [hr]; exact h.resp_reserved
  params_wf := by rw [hp]; exact h.params_wf
  chips_wf := hc.1
  chips_bound := hc.2

theorem State.Inv.accept {s : State} (h : s.Inv) (rest : List HostEvent) : (s.accept rest).Inv :=
  h.of_busy rfl rfl rfl rfl h.cellsOk

/-- Reset sets every field the invariant speaks of but the parameters and the chips, which stay
(70_reset_and_hazards.md R220, R221). -/
theorem inv_onReset {s : State} (rest : List HostEvent) (hp : s.params.wf) (hc : CellsOk s.chips.known) :
    (s.onReset rest).Inv where
  busOpen_iff_ready := by simp
  resp_lc := by simp [respLc, Lifecycle.code]
  resp_code := by simp [respCode]
  resp_reserved := by simp [respReserved]
  params_wf := hp
  chips_wf := hc.1
  chips_bound := hc.2

/-- A command started with `BUS_OPEN` right keeps the invariant, whether it answers or hangs. -/
theorem exec_keeps_inv {i : Instr} {s t : State} (h : s.Inv) (hb : OpenWhenReady s) (he : exec i s = .next t) :
    t.Inv := by
  cases exec_ends he with
  | answers hp _ _ hopen => exact inv_endWith _ _ (hopen hb) (hp.params ▸ h.params_wf) (hp.cells h.cellsOk)
  | hangs hang _ =>
    obtain ⟨u, hp, -, rfl⟩ := hang.progress
    exact h.of_busy rfl hp.resp hang.lc hp.params (hp.cells h.cellsOk)

/-- Settles O49, by the four things a step can do. -/
theorem stepKeepsInvariant : Obligations.StepKeepsInvariant := by
  intro s t h hst
  rcases step_cases hst with rfl | ⟨rest, -, rfl⟩ | ⟨rest, hidle, rfl⟩ | ⟨i, rest, hidle, he⟩
  · exact h
  · exact inv_onReset rest h.params_wf h.cellsOk
  · exact inv_endWith _ _ (h.busOpen_iff_ready hidle) h.params_wf h.cellsOk
  · exact exec_keeps_inv (h.accept rest) (h.busOpen_iff_ready hidle) he

/-- Settles O50: every field of the reset state is a constant. -/
theorem resetHasInvariant : Obligations.ResetHasInvariant :=
  inv_onReset (s := State.reset) [] (by decide) cellsOk_reset

/-! ## What a command may write -/

/-- Settles O44: a command that hangs leaves `LC`, and one that answers moves it as `LcMove` says. -/
theorem lifecycleOnlyMovesForward : Obligations.LifecycleOnlyMovesForward := by
  intro i s t he hne
  cases exec_ends he with
  | hangs hang _ => exact absurd hang.lc hne
  | answers _ _ move _ =>
    obtain hsame | ⟨hmove, rfl⟩ := move
    · exact absurd hsame hne
    · exact ⟨hmove, by simp [ErrorCode.number], rfl⟩

/-- Settles O46, for a command that answers and for one that hangs. -/
theorem onlyFourCommandsWriteFramebuffer : Obligations.OnlyFourCommandsWriteFramebuffer := by
  intro i s t he
  cases exec_ends he with
  | answers hp hfb _ _ => exact ⟨hp.params, hp.inbox, hfb⟩
  | hangs hang hfb =>
    obtain ⟨u, hp, -, rfl⟩ := hang.progress
    exact ⟨hp.params, hp.inbox, hfb⟩

/-! ## The chips are never read

A simulation: states equal but for the chips stay so, operation by operation. -/

/-- Two states are equal but for what the chips hold. -/
def State.SameBlock (s t : State) : Prop := ∃ c, t = s.withChips c

/-- Two runs of an operation end alike, in states equal but for the chips. -/
inductive Flow.SameBlock {α : Type} : Flow α → Flow α → Prop
  | done {s t : State} (a : α) (h : s.SameBlock t) : Flow.SameBlock (.done a s) (.done a t)
  | hung {s t : State} (h : s.SameBlock t) : Flow.SameBlock (.hung s) (.hung t)

section SameBlock

variable {s t : State} (h : s.SameBlock t)
include h

theorem State.SameBlock.params_eq : t.params = s.params := by
  obtain ⟨c, rfl⟩ := h
  rfl

theorem endWith_sameBlock (e : ErrorCode) (f : Fields) : (s.endWith e f).SameBlock (t.endWith e f) := by
  obtain ⟨c, rfl⟩ := h
  exact ⟨c, rfl⟩

theorem clearFb_sameBlock : s.clearFb.SameBlock t.clearFb := by
  obtain ⟨c, rfl⟩ := h
  exact ⟨c, rfl⟩

/-- The oracle's answer is listed or numbered by the trace, and neither is the chips. -/
theorem bus_sameBlock (req : BusRequest) : (bus req s).SameBlock (bus req t) := by
  obtain ⟨c, rfl⟩ := h
  rcases answer_cases s 0 with hn | ⟨r, hr⟩
  · rw [bus_never hn, bus_never (s := s.withChips c) hn]
    exact .hung ⟨c, rfl⟩
  · rw [bus_given hr, bus_given (s := s.withChips c) hr]
    exact .done r ⟨c, rfl⟩

theorem openBus_sameBlock : (openBus s).SameBlock (openBus t) := by
  unfold openBus
  match bus .openBus s, bus .openBus t, bus_sameBlock h .openBus with
  | _, _, .hung hu => exact .hung hu
  | _, _, .done r ⟨c, hu⟩ =>
    subst hu
    refine .done r.opens ⟨c, ?_⟩
    split <;> rfl

theorem configureBus_sameBlock : (configureBus s).SameBlock (configureBus t) := by
  unfold configureBus
  rw [h.params_eq]
  match bus _ s, bus _ t, bus_sameBlock h (.configure Config.spiMode Config.wordBits s.params.clockHz) with
  | _, _, .hung hu => exact .hung hu
  | _, _, .done r hu => exact .done r.rejects hu

theorem closeBus_sameBlock : (closeBus s).SameBlock (closeBus t) := by
  have hclosed : State.SameBlock { s with busOpen := false } { t with busOpen := false } := by
    obtain ⟨c, rfl⟩ := h
    exact ⟨c, rfl⟩
  unfold closeBus
  match bus .closeBus { s with busOpen := false }, bus .closeBus { t with busOpen := false },
    bus_sameBlock hclosed .closeBus with
  | _, _, .hung hu => exact .hung hu
  | _, _, .done _ hu => exact .done () hu

/-- The two places where a frame reaches the chips (41_encoder.md R107, 40_bus_transport.md R84): each writes them and
decides nothing by them. -/
theorem sendFrame_sameBlock (f : Frame) : (sendFrame f s).SameBlock (sendFrame f t) := by
  unfold sendFrame
  match bus (.write f) s, bus (.write f) t, bus_sameBlock h (.write f) with
  | _, _, .hung ⟨_, hu⟩ =>
    subst hu
    exact .hung ⟨_, rfl⟩
  | _, _, .done r ⟨_, hu⟩ =>
    subst hu
    by_cases h8 : r.accepts = 8
    · simp only [h8, if_true]
      exact .done _ ⟨_, rfl⟩
    · simp only [h8, if_false]
      exact .done _ ⟨_, rfl⟩

end SameBlock

theorem sendFrames_sameBlock (fs : List Frame) (k : Nat) {s t : State} (h : s.SameBlock t) :
    (sendFrames fs k s).SameBlock (sendFrames fs k t) := by
  induction fs generalizing k s t with
  | nil => exact .done none h
  | cons f fs ih =>
    unfold sendFrames
    match sendFrame f s, sendFrame f t, sendFrame_sameBlock h f with
    | _, _, .hung hu => exact .hung hu
    | _, _, .done .done hu => exact ih (k + 1) hu
    | _, _, .done (.short n) hu => exact .done _ hu

section SameBlockCommands

variable {s t : State} (h : s.SameBlock t)
include h

theorem doFlush_sameBlock : (doFlush s).SameBlock (doFlush t) := by
  have hframes : flushFrames t.params t.fb = flushFrames s.params s.fb := by
    obtain ⟨c, rfl⟩ := h
    rfl
  unfold doFlush
  rw [hframes]
  match sendFrames _ 0 s, sendFrames _ 0 t, sendFrames_sameBlock (flushFrames s.params s.fb) 0 h with
  | _, _, .hung hu => exact .hung hu
  | _, _, .done (some f) hu => exact .done _ hu
  | _, _, .done none ⟨_, hu⟩ =>
    subst hu
    exact .done _ ⟨_, rfl⟩

theorem sendAndRespond_sameBlock (f : Frame) : (sendAndRespond f s).SameBlock (sendAndRespond f t) := by
  unfold sendAndRespond
  match sendFrame f s, sendFrame f t, sendFrame_sameBlock h f with
  | _, _, .hung hu => exact hu
  | _, _, .done .done hu => exact endWith_sameBlock hu _ _
  | _, _, .done (.short n) hu => exact endWith_sameBlock hu _ _

theorem abandonInit_sameBlock (e : ErrorCode) (f : Fields) : (abandonInit e f s).SameBlock (abandonInit e f t) := by
  unfold abandonInit
  match closeBus s, closeBus t, closeBus_sameBlock h with
  | _, _, .hung hu => exact hu
  | _, _, .done _ hu => exact endWith_sameBlock hu _ _

theorem sendInitFrames_sameBlock (v : Int) : (sendInitFrames v s).SameBlock (sendInitFrames v t) := by
  unfold sendInitFrames
  rw [h.params_eq]
  match sendFrames _ 0 s, sendFrames _ 0 t, sendFrames_sameBlock (initFrames s.params v) 0 h with
  | _, _, .hung hu => exact hu
  | _, _, .done (some f) hu => exact abandonInit_sameBlock hu _ _
  | _, _, .done none ⟨_, hu⟩ =>
    subst hu
    exact ⟨_, rfl⟩

theorem bringUp_sameBlock (v : Int) : (bringUp v s).SameBlock (bringUp v t) := by
  unfold bringUp
  match openBus s, openBus t, openBus_sameBlock h with
  | _, _, .hung hu => exact hu
  | _, _, .done false hu => exact endWith_sameBlock hu _ _
  | _, _, .done (s := u) (t := w) true hu =>
    dsimp only
    match configureBus u, configureBus w, configureBus_sameBlock hu with
    | _, _, .hung hw => exact hw
    | _, _, .done (some p) hw => exact abandonInit_sameBlock hw _ _
    | _, _, .done none hw => exact sendInitFrames_sameBlock hw v

theorem closeDown_sameBlock (failure : Option ShortAt) : (closeDown failure s).SameBlock (closeDown failure t) := by
  unfold closeDown
  match closeBus s, closeBus t, closeBus_sameBlock h with
  | _, _, .hung hu => exact hu
  | _, _, .done _ ⟨c, hu⟩ =>
    subst hu
    cases failure <;> exact ⟨c, rfl⟩

end SameBlockCommands

/-- The check on `LC` that opens a command goes the same way in both states. -/
theorem guarded_sameBlock {s t u w : State} (h : s.SameBlock t) {l : Lifecycle} {e : ErrorCode} {f : Fields}
    (hrun : u.SameBlock w) :
    (if s.lc = l then u else raise e f s).SameBlock (if t.lc = l then w else raise e f t) := by
  have hlc : t.lc = s.lc := by
    obtain ⟨c, rfl⟩ := h
    rfl
  rw [hlc]
  split
  · exact hrun
  · exact endWith_sameBlock h e f

/-- A command does the same in states equal but for the chips. -/
theorem exec_sameBlock (i : Instr) {s t : State} (h : s.SameBlock t) :
    ∃ u w, exec i s = .next u ∧ exec i t = .next w ∧ u.SameBlock w := by
  cases i with
  | init v => exact ⟨_, _, rfl, rfl, guarded_sameBlock h (bringUp_sameBlock (clearFb_sameBlock h) v)⟩
  | setpx x y on =>
    refine ⟨_, _, rfl, rfl, ?_⟩
    obtain ⟨c, rfl⟩ := h
    split <;> exact ⟨c, rfl⟩
  | clear => exact ⟨_, _, rfl, rfl, endWith_sameBlock (clearFb_sameBlock h) _ _⟩
  | flush =>
    refine ⟨_, _, rfl, rfl, guarded_sameBlock h ?_⟩
    match doFlush s, doFlush t, doFlush_sameBlock h with
    | _, _, .hung hu => exact hu
    | _, _, .done none hu => exact endWith_sameBlock hu _ _
    | _, _, .done (some f) hu => exact endWith_sameBlock hu _ _
  | shutdown =>
    refine ⟨_, _, rfl, rfl, guarded_sameBlock h ?_⟩
    match doFlush s.clearFb, doFlush t.clearFb, doFlush_sameBlock (clearFb_sameBlock h) with
    | _, _, .hung hu => exact hu
    | _, _, .done failure hu => exact closeDown_sameBlock hu failure
  | getpx x y =>
    refine ⟨_, _, rfl, rfl, ?_⟩
    obtain ⟨c, rfl⟩ := h
    split <;> exact ⟨c, rfl⟩
  | bcast reg data => exact ⟨_, _, rfl, rfl, guarded_sameBlock h (sendAndRespond_sameBlock h _)⟩
  | row r D =>
    refine ⟨_, _, rfl, rfl, guarded_sameBlock h ?_⟩
    rw [h.params_eq]
    split
    · exact sendAndRespond_sameBlock h _
    · exact endWith_sameBlock h _ _

/-- The command port looks at `BUSY` and at what the host offers, not at the chips. -/
@[simp] theorem portAction_withChips (s : State) (c : Chips) : (s.withChips c).portAction = s.portAction := rfl

/-- A step does the same in states equal but for the chips. -/
theorem step_sameBlock {s t : State} (h : s.SameBlock t) :
    ∃ u w, step s = .next u ∧ step t = .next w ∧ u.SameBlock w := by
  obtain ⟨c, rfl⟩ := h
  unfold step
  rw [portAction_withChips]
  split
  · exact ⟨_, _, rfl, rfl, c, rfl⟩
  · exact ⟨_, _, rfl, rfl, c, rfl⟩
  · exact ⟨_, _, rfl, rfl, c, rfl⟩
  · exact exec_sameBlock _ ⟨c, rfl⟩

/-- Settles O51, by the simulation `step_sameBlock`. -/
theorem blockNeverReadsChips : Obligations.BlockNeverReadsChips := by
  intro s t c hst
  obtain ⟨u, w, hu, hw, c', rfl⟩ := step_sameBlock (t := s.withChips c) ⟨c, rfl⟩
  obtain rfl : u = t := by injection hu.symm.trans hst
  exact ⟨c', hw⟩

end Sys2Proof.Machine

/-! # The panel after a flush (20_memory.md R57, 60_exceptions.md R207, 70_reset_and_hazards.md R225, R228) -/

namespace Sys2Proof.Machine

/-! ## The frames of a flush, by row -/

theorem getElem_flushFrames (p : Params) (fb : Vector Word 8) (k : Nat) (hk : k < (flushFrames p fb).length) :
    (flushFrames p fb)[k] = flushFrame p fb ⟨k, hk⟩ := by
  have hrows : flushFrames p fb = List.ofFn (flushFrame p fb) := by simp [flushFrames]
  simp only [hrows, List.getElem_ofFn]

/-- A flush is the frames of the rows above y, row y's frame, and the frames of the rows below. -/
theorem flushFrames_split (p : Params) (fb : Vector Word 8) (y : Fin 8) :
    flushFrames p fb = (flushFrames p fb).take y.val ++ flushFrame p fb y :: (flushFrames p fb).drop (y.val + 1) := by
  have hy : y.val < (flushFrames p fb).length := by simp
  have hrow := getElem_flushFrames p fb y.val hy
  exact hrow ▸ frames_split hy

@[simp] theorem frameReg_flushFrame (p : Params) (fb : Vector Word 8) (y : Fin 8) (d : Fin 4) :
    frameReg p (flushFrame p fb y) d = BitVec.ofNat 8 (y.val + 1) :=
  frameReg_rowBytes p _ _ d

@[simp] theorem frameData_flushFrame (p : Params) (fb : Vector Word 8) (y : Fin 8) (d : Fin 4) :
    frameData p (flushFrame p fb y) d = pack p.bitPolarity fb[y] d :=
  (frameData_rowBytes p _ _ d).trans (packRow_get _ _ d)

/-- The register addresses of different rows are different. -/
theorem rowAddress_inj {y y' : Fin 8} (h : BitVec.ofNat 8 (y.val + 1) = BitVec.ofNat 8 (y'.val + 1)) : y = y' := by
  have hnat := congrArg BitVec.toNat h
  simp only [BitVec.toNat_ofNat] at hnat
  omega

/-- No frame after row y's carries row y's register. -/
theorem rowAddress_ne_of_mem_drop {p : Params} {fb : Vector Word 8} {y : Fin 8} {g : Frame}
    (hg : g ∈ (flushFrames p fb).drop (y.val + 1)) (d : Fin 4) : BitVec.ofNat 8 (y.val + 1) ≠ frameReg p g d := by
  obtain ⟨j, hj, rfl⟩ := List.mem_drop_iff_getElem.1 hg
  rw [getElem_flushFrames, frameReg_flushFrame]
  intro h
  have hy := congrArg Fin.val (rowAddress_inj h)
  simp only at hy
  omega

/-! ## What the chips and the LEDs then hold -/

/-- With the rows not in doubt, a frame for a row register is known to land. -/
theorem Chips.trusts_rowAddress {p : Params} {c : Chips} (h : c.rowsDoubtful = false) (y : Fin 8) :
    c.trusts p (BitVec.ofNat 8 (y.val + 1)) = true := by
  have hrow : regClass p (BitVec.ofNat 8 (y.val + 1)) = .row :=
    regClass_row (by simp; omega) (by simp; omega)
  simp [Chips.trusts, hrow, h]

/-- A complete flush leaves in row register y + 1 of every device the byte packed from row y, whatever the chips held
(70_reset_and_hazards.md R228): row y's frame is the last to carry that register. -/
theorem Chips.reg_settleRows_flushFrames (p : Params) (c : Chips) (fb : Vector Word 8) (d : Fin 4) (y : Fin 8) :
    (c.settleRows p (flushFrames p fb)).reg p d (BitVec.ofNat 8 (y.val + 1)) = pack p.bitPolarity fb[y] d := by
  have hholds := Chips.holds_latches_last (c := { c with rowsDoubtful := false }) (f := flushFrame p fb y) (d := d)
    ((flushFrames p fb).take y.val) ((flushFrames p fb).drop (y.val + 1)) (trusts_rowAddress rfl y)
    (frameReg_flushFrame p fb y d) (fun g hg => rowAddress_ne_of_mem_drop hg d)
  rw [← flushFrames_split, frameData_flushFrame] at hholds
  exact reg_of_holds hholds

/-- Bit b of device d drives column 8 d + col(b), so the bit of column x is packed from column x
(42_framebuffer.md R124, 60_exceptions.md R207). -/
theorem getLsbD_pack_column (q : BitPolarity) (w : Word) (x : Fin 32) :
    (pack q w ⟨x.val / 8, by omega⟩).getLsbD (colOf q ⟨x.val % 8, by omega⟩).val = w.getLsbD x.val := by
  rw [getLsbD_pack, colOf_colOf, Nat.div_add_mod]

theorem led_flushed (s : State) (x : Fin 32) (y : Fin 8) : s.flushed.led x y = s.cell x y := by
  have hreg : s.flushed.chipReg ⟨x.val / 8, by omega⟩ (BitVec.ofNat 8 (y.val + 1)) =
      pack s.params.bitPolarity s.fb[y] ⟨x.val / 8, by omega⟩ :=
    Chips.reg_settleRows_flushFrames ..
  rw [State.led, hreg]
  exact getLsbD_pack_column ..

/-- A FLUSH whose frames are all accepted whole completes with `OK` (43_flush.md R142). -/
theorem exec_flush_whole {s : State} (hready : s.lc = .ready) (h : s.AcceptsAll 0 8) :
    exec .flush s = .next (respond {} s.flushed) := by
  simp only [exec, execFlush, if_pos hready, doFlush_whole h]

/-- Settles O56: the response leaves the chips as the completed flush left them. -/
theorem flushShowsFramebuffer : Obligations.FlushShowsFramebuffer := by
  intro s hready h
  exact ⟨respond {} s.flushed, exec_flush_whole hready h, led_flushed s⟩

end Sys2Proof.Machine

/-! # The encoding (30_encoding.md): the encoder against the decoder, the opcode map, the reserved words -/

namespace Sys2Proof

/-! ## The operand fields of a word put together from its parts -/

@[simp] theorem lowByte_or (a b : Word) : lowByte (a ||| b) = lowByte a ||| lowByte b :=
  BitVec.extractLsb'_or

@[simp] theorem secondByte_or (a b : Word) : secondByte (a ||| b) = secondByte a ||| secondByte b :=
  BitVec.extractLsb'_or

@[simp] theorem lowByte_ofNat (n : Nat) : lowByte (BitVec.ofNat 32 n) = BitVec.ofNat 8 n := by
  apply BitVec.eq_of_toNat_eq
  simp [lowByte]

@[simp] theorem secondByte_ofNat (n : Nat) : secondByte (BitVec.ofNat 32 n) = BitVec.ofNat 8 (n / 256) := by
  apply BitVec.eq_of_toNat_eq
  simp [secondByte, Nat.shiftRight_eq_div_pow]
  omega

@[simp] theorem opc_ofNat (n : Nat) : opc (BitVec.ofNat 32 n) = BitVec.ofNat 4 (n / 2 ^ 28) := by
  apply BitVec.eq_of_toNat_eq
  simp [opc, Nat.shiftRight_eq_div_pow]
  omega

@[simp] theorem lowByte_byteAt_zero (b : Byte) : lowByte (byteAt 0 b) = b := by
  apply BitVec.eq_of_getLsbD_eq
  intro i hi
  simp [lowByte, byteAt, hi]
  omega

@[simp] theorem secondByte_byteAt_eight (b : Byte) : secondByte (byteAt 8 b) = b := by
  apply BitVec.eq_of_getLsbD_eq
  intro i hi
  interval_cases i <;> simp [secondByte, byteAt]

@[simp] theorem lowByte_byteAt_eight (b : Byte) : lowByte (byteAt 8 b) = 0 := by
  apply BitVec.eq_of_getLsbD_eq
  intro i hi
  simp [lowByte, byteAt]
  omega

@[simp] theorem secondByte_byteAt_zero (b : Byte) : secondByte (byteAt 0 b) = 0 := by
  apply BitVec.eq_of_getLsbD_eq
  intro i hi
  simp [secondByte, byteAt]

/-- The flag `ON` of SETPX lies above both operand bytes (30_encoding.md R62). -/
@[simp] theorem lowByte_flag (b : BitVec 1) : lowByte (b.setWidth 32 <<< 16) = 0 := by
  apply BitVec.eq_of_getLsbD_eq
  intro i hi
  simp [lowByte]
  omega

@[simp] theorem secondByte_flag (b : BitVec 1) : secondByte (b.setWidth 32 <<< 16) = 0 := by
  apply BitVec.eq_of_getLsbD_eq
  intro i hi
  simp [secondByte]
  omega

theorem getLsbD_encode_setpx (x y : Int) (on : Bool) : (encode (.setpx x y on)).1.getLsbD 16 = on := by
  simp [encode, byteAt]

/-! ## Decoding what was encoded -/

/-- A signed operand is its 8-bit two's complement, read back (30_encoding.md R63, R69). -/
theorem bmod_signed {v : Int} (h : SignedByte v) : v.bmod 256 = v := by
  simpa using toInt_ofInt_signed h

theorem check_init_eq_none {v : Int} : Instr.check (.init v) = none ↔ SignedByte v := by
  simp [Instr.check]

theorem checkCoordinates_eq_none {x y : Int} : checkCoordinates x y = none ↔ SignedByte x ∧ SignedByte y :=
  ⟨signed_of_check, fun ⟨hx, hy⟩ => by simp [checkCoordinates, hx, hy]⟩

/-- Each operand of a command the assembler accepts is read back from the field it was written to. -/
theorem operands_encode {i : Instr} (h : i.WellFormed) : operands i.op (encode i).1 (encode i).2 = i := by
  cases i with
  | init v =>
    have hv := check_init_eq_none.1 h
    simp [operands, encode, Instr.op, bmod_signed hv]
  | setpx x y on =>
    obtain ⟨hx, hy⟩ := checkCoordinates_eq_none.1 h
    simp only [operands, getLsbD_encode_setpx, Instr.op]
    simp [encode, bmod_signed hx, bmod_signed hy]
  | clear => rfl
  | flush => rfl
  | shutdown => rfl
  | getpx x y =>
    obtain ⟨hx, hy⟩ := checkCoordinates_eq_none.1 h
    simp [operands, encode, Instr.op, bmod_signed hx, bmod_signed hy]
  | bcast reg data => simp [operands, encode, Instr.op]
  | row r D => simp [operands, encode, Instr.op, devDataOf_devDataWord]

/-- The encoder's word selects the command's own row of the opcode map. -/
theorem encode_selects (i : Instr) : Laws.EncodedRow.Statement i := by
  cases i with
  | init v => exact Laws.EncodedRow.init v
  | setpx x y on => exact Laws.EncodedRow.setpx x y on
  | clear => exact Laws.EncodedRow.clear
  | flush => exact Laws.EncodedRow.flush
  | shutdown => exact Laws.EncodedRow.shutdown
  | getpx x y => exact Laws.EncodedRow.getpx x y
  | bcast reg data => exact Laws.EncodedRow.bcast reg data
  | row r D => exact Laws.EncodedRow.row r D

/-- Settles O1: the encoded word selects the command's row, and the row's operands are the command's. -/
theorem encodedCommandsDecode : Obligations.EncodedCommandsDecode := by
  intro i h
  obtain ⟨r, hr, hop, hsel⟩ := encode_selects i
  rw [decode_of_selects hr hsel, hop, operands_encode h]

/-! ## Encoding what was decoded -/

theorem byteAt_lowByte (w : Word) : byteAt 0 (lowByte w) = w &&& 0xFF := by
  apply BitVec.eq_of_getLsbD_eq
  intro i hi
  interval_cases i <;> simp [byteAt, lowByte]

theorem byteAt_secondByte (w : Word) : byteAt 8 (secondByte w) = w &&& 0xFF00 := by
  apply BitVec.eq_of_getLsbD_eq
  intro i hi
  interval_cases i <;> simp [byteAt, secondByte]

theorem flag_of_bit (w : Word) : (BitVec.ofBool w[16]).setWidth 32 <<< 16 = w &&& 0x10000 := by
  apply BitVec.eq_of_getLsbD_eq
  intro i hi
  interval_cases i <;> simp

/-- Re-encoding the operands of a row keeps the bits of the word outside the row's mask, and no others. -/
theorem encode_operands {r : OpcodeRow} (hr : r ∈ opcodeTable) (cmd arg : Word) :
    (encode (operands r.op cmd arg)).1 = r.pattern ||| (cmd &&& ~~~r.mask) := by
  simp only [opcodeTable, List.mem_cons, List.not_mem_nil, or_false] at hr
  rcases hr with rfl | rfl | rfl | rfl | rfl | rfl | rfl | rfl <;>
    simp [encode, operands, BitVec.or_assoc, flag_of_bit, byteAt_lowByte, byteAt_secondByte,
      ← BitVec.and_or_distrib_left]

/-- A word is its masked bits and the rest. -/
theorem pattern_or_unmasked {cmd m p : Word} (h : cmd &&& m = p) : p ||| (cmd &&& ~~~m) = cmd := by
  rw [← h, ← BitVec.and_or_distrib_left, BitVec.or_not_self, BitVec.and_allOnes]

/-- Signed operands read from a byte are in range (30_encoding.md R63, R69). -/
theorem operands_wellFormed (op : Op) (cmd arg : Word) : (operands op cmd arg).WellFormed := by
  cases op with
  | init => exact check_init_eq_none.2 (byte_signed _)
  | setpx => exact checkCoordinates_eq_none.2 ⟨byte_signed _, byte_signed _⟩
  | getpx => exact checkCoordinates_eq_none.2 ⟨byte_signed _, byte_signed _⟩
  | clear | flush | shutdown | bcast | row => rfl

theorem encode_operands_row_arg (cmd arg : Word) : (encode (operands .row cmd arg)).2 = arg :=
  devDataWord_devDataOf arg

/-- Settles O2: the selected row's pattern is put back under its mask, and the operands beside it. -/
theorem decodedWordsReencode : Obligations.DecodedWordsReencode := by
  intro cmd arg i hd
  obtain ⟨r, hr, hsel, rfl⟩ := decode_ok hd
  refine ⟨operands_wellFormed r.op cmd arg, ?_, fun hrow => ?_⟩
  · rw [encode_operands hr, pattern_or_unmasked hsel]
  · rw [operands_op] at hrow
    rw [hrow, encode_operands_row_arg]

/-! ## The opcode map -/

/-- Settles O3: the row that a decoded word selects is its command's, and no other row is selected. -/
theorem opcodeMapSelectsOneRow : Obligations.OpcodeMapSelectsOneRow := by
  refine ⟨rfl, fun cmd arg i hd => ?_⟩
  obtain ⟨r, hr, hsel, rfl⟩ := decode_ok hd
  refine ⟨r, hr, (operands_op r.op cmd arg).symm, fun r' hr' => ⟨fun hsel' => ?_, fun he => ?_⟩⟩
  · exact selects_unique hr' hr hsel' hsel
  · rwa [he]

/-! ## The operands -/

theorem devDataOf_get (arg : Word) (d : Fin 4) : (devDataOf arg)[d] = arg.extractLsb' (8 * d.val) 8 := by
  fin_cases d <;> rfl

/-- Settles O5, opcode by opcode: the decoder's operands are those of the selected row. -/
theorem operandsAreRead : Obligations.OperandsAreRead := by
  intro cmd arg i hd
  obtain ⟨r, -, -, rfl⟩ := decode_ok hd
  cases r.op with
  | init => rfl
  | setpx => exact ⟨rfl, rfl, rfl⟩
  | clear | flush | shutdown => exact trivial
  | getpx => exact ⟨rfl, rfl⟩
  | bcast => exact ⟨rfl, rfl⟩
  | row => exact ⟨rfl, devDataOf_get arg⟩

/-- `ARG` is an operand of ROW alone (30_encoding.md R64). -/
theorem operands_arg_irrelevant {op : Op} (h : op ≠ .row) (cmd a b : Word) : operands op cmd a = operands op cmd b := by
  cases op with
  | row => exact absurd rfl h
  | init | setpx | clear | flush | shutdown | getpx | bcast => rfl

/-- ROW's row is the one with opcode 8. -/
theorem op_ne_row_of_opc : ∀ r ∈ opcodeTable, opc r.pattern ≠ 8 → r.op ≠ .row := by
  decide

/-- Settles O6: which row is selected does not depend on `ARG`, and only ROW's operands do. -/
theorem argOnlyMattersToRow : Obligations.ArgOnlyMattersToRow := by
  refine ⟨fun cmd a b hopc => ?_, fun cmd arg r D hd => (operandsAreRead cmd arg _ hd).2⟩
  unfold decode
  cases hf : opcodeTable.find? (fun r => r.selects cmd) with
  | none => rfl
  | some r =>
    obtain ⟨hr, hsel⟩ := selected_row hf
    have hrow : r.op ≠ .row := op_ne_row_of_opc r hr (opc_of_selects hr hsel ▸ hopc)
    exact congrArg Except.ok (operands_arg_irrelevant hrow cmd a b)

/-! ## The reserved words -/

/-- The mask of every bit from `low` up. -/
theorem getLsbD_maskFrom (low i : Nat) :
    (BitVec.allOnes 32 <<< low).getLsbD i = (decide (i < 32) && decide (low ≤ i)) := by
  rw [BitVec.getLsbD_shiftLeft, BitVec.getLsbD_allOnes]
  grind

/-- The word with opcode `k` and every other bit 0. -/
theorem getLsbD_opcodeWord (k : BitVec 4) (i : Nat) :
    (k.setWidth 32 <<< 28).getLsbD i = (decide (28 ≤ i) && k.getLsbD (i - 28)) := by
  rw [BitVec.getLsbD_shiftLeft, BitVec.getLsbD_setWidth]
  grind

theorem getLsbD_opc (cmd : Word) (i : Nat) : (opc cmd).getLsbD i = (decide (i < 4) && cmd.getLsbD (28 + i)) := by
  rw [opc, BitVec.getLsbD_extractLsb']

/-- Matching an opcode under the mask of every bit from `low` up: the opcode is the one asked for, and the bits between
`low` and it are 0. -/
theorem masked_eq_opcodeWord_iff (cmd : Word) (k : BitVec 4) {low : Nat} (hlow : low ≤ 28) :
    cmd &&& (BitVec.allOnes 32 <<< low) = k.setWidth 32 <<< 28 ↔
      opc cmd = k ∧ cmd.extractLsb' low (28 - low) = 0 := by
  constructor
  · intro h
    have hbit (i : Nat) := getLsbD_of_mask h i
    simp only [getLsbD_maskFrom, getLsbD_opcodeWord] at hbit
    constructor
    · apply BitVec.eq_of_getLsbD_eq
      intro i hi
      have hi' := hbit (28 + i)
      rw [getLsbD_opc]
      grind
    · apply BitVec.eq_of_getLsbD_eq
      intro i hi
      have hi' := hbit (low + i)
      rw [BitVec.getLsbD_extractLsb']
      grind
  · rintro ⟨rfl, hzero⟩
    apply BitVec.eq_of_getLsbD_eq
    intro i hi
    have hi' := congrArg (BitVec.getLsbD · (i - low)) hzero
    simp only [BitVec.getLsbD_extractLsb'] at hi'
    rw [BitVec.getLsbD_and, getLsbD_maskFrom, getLsbD_opcodeWord, getLsbD_opc]
    grind

/-- The lowest reserved bit of an opcode's format; the reserved bits reach up to the opcode (30_encoding.md R62). -/
def Op.reservedLow : Op → Nat
  | .clear | .flush | .shutdown => 0
  | .init | .row => 8
  | .getpx | .bcast => 16
  | .setpx => 17

/-- The reserved bits of an opcode's format, in a command word. -/
abbrev Op.reservedBits (op : Op) (cmd : Word) : BitVec (28 - op.reservedLow) :=
  cmd.extractLsb' op.reservedLow (28 - op.reservedLow)

/-- Every row masks the opcode and the reserved bits of its format, and asks for its opcode and zeros (R65). -/
theorem opcodeTable_shape : ∀ r ∈ opcodeTable, r.op.reservedLow ≤ 28 ∧
    r.mask = BitVec.allOnes 32 <<< r.op.reservedLow ∧ r.pattern = (opc r.pattern).setWidth 32 <<< 28 := by
  decide

theorem selects_iff {cmd : Word} {r : OpcodeRow} (hr : r ∈ opcodeTable) :
    cmd &&& r.mask = r.pattern ↔ opc cmd = opc r.pattern ∧ r.op.reservedBits cmd = 0 := by
  obtain ⟨hlow, hmask, hpattern⟩ := opcodeTable_shape r hr
  rw [hmask, hpattern, masked_eq_opcodeWord_iff _ _ hlow, ← hpattern]

theorem decode_error_iff {cmd arg : Word} :
    (∃ e, decode cmd arg = .error e) ↔ ∀ r ∈ opcodeTable, cmd &&& r.mask ≠ r.pattern := by
  constructor
  · rintro ⟨e, he⟩ r hr hsel
    rw [decode_of_selects hr hsel] at he
    cases he
  · intro hnone
    cases hd : decode cmd arg with
    | error e => exact ⟨e, rfl⟩
    | ok i =>
      obtain ⟨r, hr, hsel, -⟩ := decode_ok hd
      exact absurd hsel (hnone r hr)

/-- A word whose opcode has a row selects that row or none: its reserved bits decide (30_encoding.md R67). -/
theorem selects_none_iff {cmd : Word} {r : OpcodeRow} (hr : r ∈ opcodeTable) (hopc : opc cmd = opc r.pattern) :
    (∀ r' ∈ opcodeTable, cmd &&& r'.mask ≠ r'.pattern) ↔ r.op.reservedBits cmd ≠ 0 := by
  constructor
  · exact fun hnone hzero => hnone r hr ((selects_iff hr).2 ⟨hopc, hzero⟩)
  · intro hne r' hr' hsel
    obtain rfl := opcodes_distinct r hr r' hr' (hopc.symm.trans (opc_of_selects hr' hsel))
    exact hne ((selects_iff hr).1 hsel).2

/-- Every opcode is a reserved one or a row's (30_encoding.md R65). -/
theorem opc_reserved_or_row : ∀ k : BitVec 4,
    (k = 0 ∨ 9 ≤ k.toNat) ∧ (∀ r ∈ opcodeTable, k ≠ opc r.pattern) ∨ ∃ r ∈ opcodeTable, k = opc r.pattern := by
  decide

end Sys2Proof

namespace Sys2Proof.Machine

/-- The words that R67 calls illegal are those that select no row of the opcode map. -/
theorem reservedWord_iff {cmd : Word} :
    ReservedWord cmd ↔ ∀ r ∈ opcodeTable, cmd &&& r.mask ≠ r.pattern := by
  rcases opc_reserved_or_row (opc cmd) with ⟨hk, hnone⟩ | ⟨r, hr, hk⟩
  · exact iff_of_true (.inl hk) fun r hr hsel => hnone r hr (opc_of_selects hr hsel)
  · rw [selects_none_iff hr hk, ReservedWord]
    simp only [opcodeTable, List.mem_cons, List.not_mem_nil, or_false] at hr
    rcases hr with rfl | rfl | rfl | rfl | rfl | rfl | rfl | rfl <;>
      simp [hk, Op.reservedBits, Op.reservedLow]

/-- Settles O4: both sides say that the word selects no row of the opcode map. -/
theorem reservedWordsAreRefused : Obligations.ReservedWordsAreRefused :=
  fun _ _ => decode_error_iff.trans reservedWord_iff.symm

/-! # The command port (30_encoding.md R60, R61, R67): what a step runs, and how a command ends -/

/-! ## One lemma per thing the port gives the block -/

theorem step_run {s : State} {i : Instr} {rest : List HostEvent} (h : s.portAction = .run i rest) :
    step s = exec i (s.accept rest) := by
  simp only [step, h]

theorem step_illegal {s : State} {rest : List HostEvent} (h : s.portAction = .illegal rest) :
    step s = .next (illegalCommand (s.accept rest)) := by
  simp only [step, h]

theorem step_stay {s : State} (h : s.portAction = .stay) : step s = .next s := by
  simp only [step, h]

/-- A busy block takes no command (30_encoding.md R61). -/
theorem portAction_busy {s : State} (hb : s.busy = true) (hr : HostEvent.reset ∉ s.inbox) : s.portAction = .stay := by
  simp [State.portAction, hb, hr]

/-- A command that `decodeTableWord` reads is what the decoder answers on the word pair it stands for. -/
theorem decode_of_decodeTableWord {nbits w : Nat} {i : Instr} (h : decodeTableWord nbits w = some i) :
    decode (BitVec.ofNat 32 (w % 2 ^ nbits)) (BitVec.ofNat 32 (w % 2 ^ nbits / 2 ^ 32)) = .ok i := by
  simp only [decodeTableWord] at h
  split at h
  · next hd =>
    cases h
    exact hd
  · cases h

/-! ## Accepting and refusing -/

/-- Settles O22: the word decodes to an error, and the error's response is all that the step adds. -/
theorem illegalWordAnswers : Obligations.IllegalWordAnswers := by
  intro s cmd arg rest hidle hin hres
  obtain ⟨e, hd⟩ := (reservedWordsAreRefused cmd arg).2 hres
  rw [step_illegal (portAction_illegal hidle hin hd)]
  rfl

/-- Settles O20: the idle port gives the decoded command. -/
theorem stepRunsDecodedCommand : Obligations.StepRunsDecodedCommand := by
  intro s cmd arg rest i hidle hin hd
  exact step_run (portAction_command hidle hin hd)

/-- Settles O21: the placed word stands first on an idle port, and taking it leaves what the host offered before. -/
theorem placedWordRunsNext : Obligations.PlacedWordRunsNext := by
  intro s nbits w i h
  exact stepRunsDecodedCommand (s.withFetchWord nbits w) _ _ s.inbox i rfl rfl (decode_of_decodeTableWord h)

/-- Settles O23: the port gives a busy block nothing but a reset. -/
theorem busyBlockTakesNoCommand : Obligations.BusyBlockTakesNoCommand :=
  fun _ hb hr => step_stay (portAction_busy hb hr)

/-! ## How a command ends -/

/-- Settles O47, for a command that answers and for one that hangs. -/
theorem oneResponsePerCommand : Obligations.OneResponsePerCommand := by
  intro i s t he
  cases exec_ends he with
  | answers hp _ _ _ => exact .inl ⟨rfl, by simp [hp.responses], by simp⟩
  | hangs hang _ =>
    obtain ⟨u, hp, -, rfl⟩ := hang.progress
    exact .inr ⟨rfl, hp.responses, hp.resp, hang.never⟩

/-- What a command puts on the bus, however it ends (30_encoding.md R73). -/
theorem exec_trace {i : Instr} {s t : State} (he : exec i s = .next t) :
    ∃ reqs, t.trace = s.trace ++ reqs ∧ ∀ q ∈ reqs, BusWord s.params q := by
  cases exec_ends he with
  | answers hp _ _ _ => exact hp.trace
  | hangs hang _ =>
    obtain ⟨u, hp, -, rfl⟩ := hang.progress
    exact hp.trace

/-- Settles O48: of the four things a step can do only a command uses the bus. -/
theorem busCarriesOnlyWholeFrames : Obligations.BusCarriesOnlyWholeFrames := by
  intro s t hst
  have unused (ht : t.trace = s.trace) : ∃ reqs, t.trace = s.trace ++ reqs ∧ ∀ q ∈ reqs, BusWord s.params q :=
    ⟨[], by simp [ht], by simp⟩
  rcases step_cases hst with rfl | ⟨rest, -, rfl⟩ | ⟨rest, -, rfl⟩ | ⟨i, rest, -, he⟩
  · exact unused rfl
  · exact unused rfl
  · exact unused rfl
  · exact exec_trace (s := s.accept rest) he

end Sys2Proof.Machine

/-! # Writes not accepted whole (40_bus_transport.md R84, R89): what the chips hold, and the block that hangs -/

namespace Sys2Proof.Machine

/-! ## A write that is never answered -/

/-- A FLUSH whose write for row k is never answered hangs there (40_bus_transport.md R89). -/
theorem exec_flush_never {s : State} {k : Nat} (hready : s.lc = .ready) (hk : k < 8) (h : s.AcceptsAll 0 k)
    (hn : s.answer k = .never) :
    exec .flush s = .next { s.cutAt (flushFrames s.params s.fb) k with busy := true } := by
  simp only [exec, execFlush, if_pos hready, doFlush_never hk h hn]

/-- Settles O36: the FLUSH stops at the unanswered write, and a busy block takes nothing but a reset. -/
theorem unansweredFlushHangs : Obligations.UnansweredFlushHangs := by
  intro s y hready h hn
  exact ⟨_, exec_flush_never hready y.isLt h hn, fun hr => busyBlockTakesNoCommand _ rfl hr⟩

/-! ## The chips after a short write -/

/-- The chips of `t` are unknown since a short write that came after `s` (40_bus_transport.md R84). -/
def ChipsSpoiledSince (s t : State) : Prop := ∃ c : Chips, s.chips.epoch ≤ c.epoch ∧ t.chips = c.spoil

/-- Every register then reads as a free value, at an index above that of `s` (log 10). -/
theorem ChipsSpoiledSince.reads_free {s t : State} (h : ChipsSpoiledSince s t) :
    s.chips.epoch < t.chips.epoch ∧
    ∀ (d : Fin 4) (a : Byte), t.chipReg d a = Config.chipByte t.chips.epoch (chipAddress d a) := by
  obtain ⟨c, hle, ht⟩ := h
  rw [ht]
  exact ⟨Nat.lt_succ_of_le hle, fun d a => by rw [State.chipReg, ht, Chips.reg_spoil]⟩

/-- A run of frames cut short leaves the chips unknown, whatever its earlier frames wrote. -/
theorem chipsSpoiledSince_cutAt (s : State) (frames : List Frame) (k : Nat) :
    ChipsSpoiledSince s (s.cutAt frames k) :=
  ⟨_, Chips.epoch_latches s.params (frames.take k) s.chips, rfl⟩

/-! ## `CLOSE` leaves the chips alone, answered or not -/

@[simp] theorem abandonInit_chips (e : ErrorCode) (f : Fields) (s : State) : (abandonInit e f s).chips = s.chips := by
  rcases answer_cases s 0 with hn | ⟨r, hr⟩
  · simp [abandonInit, closeBus_never hn]
  · simp [abandonInit_given hr]

@[simp] theorem closeDown_chips (failure : Option ShortAt) (s : State) : (closeDown failure s).chips = s.chips := by
  rcases answer_cases s 0 with hn | ⟨r, hr⟩
  · simp [closeDown, closeBus_never hn]
  · cases failure <;> simp [closeDown, closeBus_given hr]

/-! ## One lemma per command that writes -/

theorem chipsSpoiledSince_flush {s t : State} {k : Nat} {n : Fin 9} (hready : s.lc = .ready) (hk : k < 8)
    (h : s.AcceptsAll 0 k) (hn : s.Accepts k n) (h8 : n ≠ 8) (he : exec .flush s = .next t) :
    ChipsSpoiledSince s t := by
  simp only [exec, execFlush, if_pos hready, doFlush_short hk h hn h8] at he
  cases he
  exact chipsSpoiledSince_cutAt s _ k

theorem chipsSpoiledSince_shutdown {s t : State} {k : Nat} {n : Fin 9} (hready : s.lc = .ready) (hk : k < 8)
    (h : s.AcceptsAll 0 k) (hn : s.Accepts k n) (h8 : n ≠ 8) (he : exec .shutdown s = .next t) :
    ChipsSpoiledSince s t := by
  simp only [exec, execShutdown, if_pos hready, doFlush_short (s := s.clearFb) hk h hn h8] at he
  cases he
  rw [ChipsSpoiledSince, closeDown_chips]
  exact chipsSpoiledSince_cutAt s.clearFb _ k

theorem chipsSpoiledSince_sendAndRespond {s : State} {n : Fin 9} (f : Frame) (hn : s.Accepts 0 n) (h8 : n ≠ 8) :
    ChipsSpoiledSince s (sendAndRespond f s) := by
  rw [sendAndRespond, sendFrame_short hn h8]
  exact ⟨s.chips, Nat.le_refl _, rfl⟩

theorem chipsSpoiledSince_bcast {s t : State} {n : Fin 9} {reg data : Byte} (hready : s.lc = .ready)
    (hn : s.Accepts 0 n) (h8 : n ≠ 8) (he : exec (.bcast reg data) s = .next t) : ChipsSpoiledSince s t := by
  simp only [exec, execBcast, if_pos hready] at he
  cases he
  exact chipsSpoiledSince_sendAndRespond _ hn h8

theorem chipsSpoiledSince_row {s t : State} {n : Fin 9} {r : Byte} {D : Vector Byte 4} (hready : s.lc = .ready)
    (h1 : 1 ≤ r.toNat) (hr8 : r.toNat ≤ 8) (hn : s.Accepts 0 n) (h8 : n ≠ 8) (he : exec (.row r D) s = .next t) :
    ChipsSpoiledSince s t := by
  simp only [exec, execRow, if_pos hready, encodeRow_valid h1 hr8] at he
  cases he
  exact chipsSpoiledSince_sendAndRespond _ hn h8

theorem chipsSpoiledSince_sendInitFrames {s : State} {k : Nat} {n : Fin 9} (v : Int) (hk : k < 13)
    (h : s.AcceptsAll 0 k) (hn : s.Accepts k n) (h8 : n ≠ 8) : ChipsSpoiledSince s (sendInitFrames v s) := by
  rw [sendInitFrames, sendFrames_short_at (frames := initFrames s.params v) hk h hn h8, ChipsSpoiledSince,
    abandonInit_chips]
  exact chipsSpoiledSince_cutAt s _ k

/-- `OPEN` and `CONFIGURE` use up two answers. -/
theorem accepts_configured {s : State} {k : Nat} {n : Fin 9} : s.configured.Accepts k n ↔ s.Accepts (2 + k) n := by
  rw [State.Accepts, answer_configured]

theorem chipsSpoiledSince_init {s t : State} {r0 r1 : Reply} {k : Nat} {n : Fin 9} {v : Int} (hs : s.lc = .uninit)
    (h0 : s.answer 0 = .given r0) (ho : r0.opens = true) (h1 : s.answer 1 = .given r1) (hc : r1.rejects = none)
    (hk : k < 13) (h : s.AcceptsAll 2 k) (hn : s.Accepts (2 + k) n) (h8 : n ≠ 8)
    (he : exec (.init v) s = .next t) : ChipsSpoiledSince s t := by
  simp only [exec, execInit, if_pos hs, bringUp_configured h0 ho h1, hc] at he
  cases he
  exact chipsSpoiledSince_sendInitFrames (s := s.configured) v hk
    (fun j hj => accepts_configured.2 (by simpa using h j hj)) (accepts_configured.2 hn) h8

/-- Settles O54, command by command. -/
theorem shortWriteLeavesChipsUnknown : Obligations.ShortWriteLeavesChipsUnknown := by
  intro s t n h8 hshort
  apply ChipsSpoiledSince.reads_free
  rcases hshort with ⟨hready, ⟨y, h, hn⟩, he⟩ | ⟨hready, hn, he⟩ | ⟨hs, ⟨r0, r1, h0, ho, h1, hc⟩, ⟨k, h, hn⟩, v, he⟩
  · rcases he with hflush | hshutdown
    · exact chipsSpoiledSince_flush hready y.isLt h hn h8 hflush
    · exact chipsSpoiledSince_shutdown hready y.isLt h hn h8 hshutdown
  · rcases he with ⟨reg, data, hbcast⟩ | ⟨r, D, h1, hr8, hrow⟩
    · exact chipsSpoiledSince_bcast hready hn h8 hbcast
    · exact chipsSpoiledSince_row hready h1 hr8 hn h8 hrow
  · exact chipsSpoiledSince_init hs h0 ho h1 hc k.isLt h hn h8 he

end Sys2Proof.Machine

/-! # The chip protocol encoder (41_encoder.md): slots and frames, BCAST and ROW, the registers that frames write -/

namespace Sys2Proof.Machine

/-! ## Slots -/

@[simp] theorem slot_slot (o : ChainOrder) (d : Fin 4) : slot o (slot o d) = d := by
  cases o with
  | farthestFirst =>
    ext
    simp only [slot]
    omega
  | nearestFirst => rfl

/-- Settles O8: under either order `slot` is its own inverse. -/
theorem slotOfDevice : Obligations.SlotOfDevice :=
  ⟨fun _ => rfl, fun _ => rfl, fun o => Function.Involutive.bijective (slot_slot o)⟩

/-! ## The bytes of the two frame formats, slot by slot -/

@[simp] theorem encodeBroadcast_regOffset (reg data : Byte) (s : Fin 4) :
    (encodeBroadcast reg data)[regOffset s] = reg := by
  fin_cases s <;> rfl

@[simp] theorem encodeBroadcast_dataOffset (reg data : Byte) (s : Fin 4) :
    (encodeBroadcast reg data)[dataOffset s] = data := by
  fin_cases s <;> rfl

@[simp] theorem rowBytes_regOffset (o : ChainOrder) (r : Byte) (D : Vector Byte 4) (s : Fin 4) :
    (rowBytes o r D)[regOffset s] = r := by
  fin_cases s <;> rfl

@[simp] theorem rowBytes_dataOffset (o : ChainOrder) (r : Byte) (D : Vector Byte 4) (s : Fin 4) :
    (rowBytes o r D)[dataOffset s] = D[slot o s] := by
  fin_cases s <;> rfl

/-- With equal data the devices' order does not show: the row frame is a broadcast frame. -/
theorem rowBytes_uniform (o : ChainOrder) (r v : Byte) : rowBytes o r #v[v, v, v, v] = encodeBroadcast r v := by
  cases o <;> rfl

/-- Settles O9. -/
theorem broadcastFrameRepeatsPair : Obligations.BroadcastFrameRepeatsPair :=
  fun reg data s => ⟨encodeBroadcast_regOffset reg data s, encodeBroadcast_dataOffset reg data s⟩

/-! ## What `encodeRow` answers -/

theorem encodeRow_invalid {o : ChainOrder} {r : Int} {D : Vector Byte 4} (h : r < 1 ∨ r > 8) :
    encodeRow o r D = none :=
  if_pos h

theorem encodeRow_inRange {o : ChainOrder} {r : Int} {D : Vector Byte 4} (h1 : 1 ≤ r) (h8 : r ≤ 8) :
    encodeRow o r D = some (rowBytes o (BitVec.ofInt 8 r) D) :=
  if_neg (by simp only [Config.rowMin, Config.rowMax]; omega)

/-- A valid selector is carried as it is. -/
theorem toNat_rowSelector {r : Int} (h1 : 1 ≤ r) (h8 : r ≤ 8) : ((BitVec.ofInt 8 r).toNat : Int) = r := by
  simp only [BitVec.toNat_ofInt]
  omega

/-- Settles O10: slot(d) carries device d's byte because `slot` undoes itself. -/
theorem rowFramePlacesDeviceData : Obligations.RowFramePlacesDeviceData := by
  refine fun o r D => ⟨encodeRow_invalid, fun h1 h8 => ⟨_, encodeRow_inRange h1 h8, fun d => ⟨?_, ?_⟩⟩⟩
  · rw [rowBytes_regOffset, toNat_rowSelector h1 h8]
  · simp only [rowBytes_dataOffset, slot_slot]

/-- Farthest first, the odd-offset bytes in wire order are the device data reversed (41_encoder.md R105). -/
theorem reverse_dataBytes_farthestFirst (r : Byte) (D : Vector Byte 4) :
    let f := rowBytes .farthestFirst r D
    [f[1], f[3], f[5], f[7]].reverse = D.toList := by
  apply List.ext_getElem
  · simp
  · intro i hi _
    have hi4 : i < 4 := hi
    interval_cases i <;> rfl

/-- Settles O11. -/
theorem rowFrameReversesDevices : Obligations.RowFrameReversesDevices := by
  refine fun r D h1 h8 => ⟨_, encodeRow_inRange h1 h8, fun s => ⟨?_, ?_⟩, reverse_dataBytes_farthestFirst _ D⟩
  · rw [rowBytes_regOffset, toNat_rowSelector h1 h8]
  · exact rowBytes_dataOffset _ _ D s

/-- Settles O12. -/
theorem broadcastEqualsUniformRow : Obligations.BroadcastEqualsUniformRow :=
  fun o r v h1 h8 => by rw [encodeRow_valid h1 h8, rowBytes_uniform]

/-! ## BCAST and ROW in READY: one `WRITE`, and how it is reported -/

theorem sendAndRespond_whole {f : Frame} {s : State} (h : s.Accepts 0 8) :
    sendAndRespond f s =
      ((s.afterRequests [.write f]).withChips (s.chips.latch s.params f)).answered (responseWord .ok s.lc {}) := by
  rw [sendAndRespond, sendFrame_whole h, afterRequests_cons, afterRequests_nil]
  rfl

theorem sendAndRespond_short {f : Frame} {s : State} {n : Fin 9} (hn : s.Accepts 0 n) (h8 : n ≠ 8) :
    sendAndRespond f s =
      ((s.afterRequests [.write f]).withChips s.chips.spoil).answered
        (responseWord .shortWrite s.lc { accepted := n.val, failReg := f[0] }) := by
  rw [sendAndRespond, sendFrame_short hn h8, afterRequests_cons, afterRequests_nil]
  rfl

theorem exec_bcast_ready {s : State} {reg data : Byte} (hready : s.lc = .ready) :
    exec (.bcast reg data) s = .next (sendAndRespond (encodeBroadcast reg data) s) := by
  simp only [exec, execBcast, if_pos hready]

theorem exec_row_ready {s : State} {r : Byte} {D : Vector Byte 4} (hready : s.lc = .ready) (h1 : 1 ≤ r.toNat)
    (h8 : r.toNat ≤ 8) : exec (.row r D) s = .next (sendAndRespond (rowBytes s.params.chainOrder r D) s) := by
  simp only [exec, execRow, if_pos hready, encodeRow_valid h1 h8]

/-- The two ways READY reports an answered frame (41_encoder.md R103, R104). -/
theorem sendAndRespond_reports {s : State} {f : Frame} (hready : s.lc = .ready) :
    (s.Accepts 0 8 → ∃ c, sendAndRespond f s =
      ((s.afterRequests [.write f]).withChips c).answered 0x00020000) ∧
    (∀ n : Fin 9, n ≠ 8 → s.Accepts 0 n → ∃ c, sendAndRespond f s =
      ((s.afterRequests [.write f]).withChips c).answered
        (responseWord .shortWrite .ready { accepted := n.val, failReg := f[0] })) := by
  have hok : responseWord .ok .ready {} = 0x00020000 := by decide
  constructor
  · intro h
    exact ⟨_, by rw [sendAndRespond_whole h, hready, hok]⟩
  · intro n h8 hn
    exact ⟨_, by rw [sendAndRespond_short hn h8, hready]⟩

/-- Settles O31. -/
theorem broadcastSendsOneFrame : Obligations.BroadcastSendsOneFrame := by
  intro s reg data hready
  simp only [exec_bcast_ready hready, Host.Outcome.next.injEq]
  exact sendAndRespond_reports hready

/-- Settles O32. -/
theorem rowSendsOneFrame : Obligations.RowSendsOneFrame := by
  intro s r D f hready h1 h8 hf
  have hframe : f = rowBytes s.params.chainOrder r D := by
    rw [hf]
    cases s.params.chainOrder <;> rfl
  subst hframe
  simp only [exec_row_ready hready h1 h8, Host.Outcome.next.injEq]
  exact sendAndRespond_reports hready

/-- Settles O33: `encodeRow` answers no frame, so the command ends where it began. -/
theorem rowRefusesInvalidSelector : Obligations.RowRefusesInvalidSelector := by
  intro s r D hready hr
  have hnone : encodeRow s.params.chainOrder r.toNat D = none := encodeRow_invalid (by omega)
  have hword : responseWord .invalidRow .ready {} = 0x00020004 := by decide
  simp only [exec, execRow, if_pos hready, hnone, raise_eq_endWith, endWith_eq_answered]
  rw [hready, hword]

/-! ## What one frame accepted whole writes -/

theorem Chips.not_doubtful_iff {c : Chips} :
    c.doubtful = false ↔ c.rowsDoubtful = false ∧ c.controlDoubtful = false :=
  Bool.or_eq_false_iff

/-- With nothing in doubt a frame's write to a named register is known to land. -/
theorem Chips.trusts_of_named {p : Params} {c : Chips} {a : Byte} (hd : c.doubtful = false)
    (ha : regClass p a ≠ .unnamed) : c.trusts p a = true := by
  obtain ⟨hrows, hcontrol⟩ := Chips.not_doubtful_iff.1 hd
  cases hclass : regClass p a with
  | row => simp [Chips.trusts, hclass, hrows]
  | control => simp [Chips.trusts, hclass, hcontrol]
  | unnamed => exact absurd hclass ha

/-- What a register holds after a frame that was accepted whole is what the frame left there. -/
theorem chipReg_sendAndRespond {f : Frame} {s : State} (h : s.Accepts 0 8) (d : Fin 4) (a : Byte) :
    (sendAndRespond f s).chipReg d a = (s.chips.latch s.params f).reg s.params d a := by
  rw [sendAndRespond_whole h]
  rfl

/-- A ROW or BCAST frame for a named register, accepted whole with nothing in doubt. -/
theorem chipReg_sendAndRespond_named {f : Frame} {s : State} {r : Byte} (h : s.Accepts 0 8)
    (hd : s.chips.doubtful = false) (hr : regClass s.params r ≠ .unnamed) (hf : ∀ d, frameReg s.params f d = r)
    (d : Fin 4) (a : Byte) :
    (sendAndRespond f s).chipReg d a = if a = r then frameData s.params f d else s.chipReg d a := by
  rw [chipReg_sendAndRespond h, Chips.reg_latch hd hr hf]
  rfl

/-- Settles O52: the frames of ROW and BCAST carry one register to every device; one for an unnamed address leaves what
is known of the others. -/
theorem wholeFrameWritesOneRegister : Obligations.WholeFrameWritesOneRegister := by
  refine fun s t hready h hd => ⟨?_, ?_, ?_⟩
  · intro r D h1 h8 he d a
    rw [exec_row_ready hready h1 h8] at he
    cases he
    have hrow : regClass s.params r ≠ .unnamed := by simp [regClass_row h1 h8]
    rw [chipReg_sendAndRespond_named h hd hrow (frameReg_rowBytes s.params r D), frameData_rowBytes]
  · intro reg data hreg he d a
    rw [exec_bcast_ready hready] at he
    cases he
    rw [chipReg_sendAndRespond_named h hd hreg (frameReg_broadcast s.params reg data), frameData_broadcast]
  · intro reg data hreg he d a v ha hv
    rw [exec_bcast_ready hready] at he
    cases he
    have hknown : s.chips.Holds s.params d a v := ⟨Chips.trusts_of_named hd ha, hv⟩
    have hne : a ≠ frameReg s.params (encodeBroadcast reg data) d := by
      rw [frameReg_broadcast]
      exact fun heq => ha (heq ▸ hreg)
    rw [chipReg_sendAndRespond h]
    exact ⟨Chips.reg_of_holds hknown, Chips.reg_of_holds (Chips.holds_latch_other hknown hne)⟩

/-! ## What the frames of a complete sequence write -/

/-- Every frame of the list carries to every device one named register, and that is not `a`. -/
def NamedOthers (p : Params) (frames : List Frame) (a : Byte) : Prop :=
  ∀ f ∈ frames, ∃ r, regClass p r ≠ .unnamed ∧ a ≠ r ∧ ∀ d, frameReg p f d = r

/-- A flush carries no register but those of the rows (43_flush.md R141). -/
theorem namedOthers_flushFrames (p : Params) (fb : Vector Word 8) {a : Byte} (ha : a.toNat < 1 ∨ 8 < a.toNat) :
    NamedOthers p (flushFrames p fb) a := by
  intro f hf
  obtain ⟨k, hk, rfl⟩ := List.getElem_of_mem hf
  rw [getElem_flushFrames]
  have hk8 : k < 8 := hk
  have hk1 : (BitVec.ofNat 8 (k + 1)).toNat = k + 1 := by simp only [BitVec.toNat_ofNat]; omega
  have hrow : regClass p (BitVec.ofNat 8 (k + 1)) = .row := regClass_row (by omega) (by omega)
  refine ⟨BitVec.ofNat 8 (k + 1), by simp [hrow], fun heq => ?_, frameReg_flushFrame p fb ⟨k, hk⟩⟩
  rw [heq, hk1] at ha
  omega

/-- An address that is a row register's or a control register parameter is named (60_exceptions.md R205). -/
theorem regClass_named {p : Params} {a : Byte}
    (h : (1 ≤ a.toNat ∧ a.toNat ≤ 8) ∨
      a ∈ [p.regDisplayTest, p.regDecodeMode, p.regScanLimit, p.regIntensity, p.regShutdown]) :
    regClass p a ≠ .unnamed := by
  by_cases hrow : 1 ≤ a.toNat ∧ a.toNat ≤ 8
  · simp [regClass_row hrow.1 hrow.2]
  · have hcontrol := h.resolve_left hrow
    simp only [List.mem_cons, List.not_mem_nil, or_false] at hcontrol
    have hclass : regClass p a = .control := by
      rw [regClass, if_neg hrow, if_pos (by tauto)]
    simp [hclass]

/-- The registers of INIT's steps (44_lifecycle.md R161). -/
theorem mem_initSteps {p : Params} {v : Int} {st : Byte × Byte} (h : st ∈ initControlSteps p v ++ initRowSteps) :
    (1 ≤ st.1.toNat ∧ st.1.toNat ≤ 8) ∨
      st.1 ∈ [p.regDisplayTest, p.regDecodeMode, p.regScanLimit, p.regIntensity, p.regShutdown] := by
  rcases List.mem_append.1 h with hcontrol | hrow
  · have hmem : st.1 ∈ (initControlSteps p v).map Prod.fst := List.mem_map_of_mem hcontrol
    exact .inr hmem
  · have hrows : ∀ st ∈ initRowSteps, 1 ≤ st.1.toNat ∧ st.1.toNat ≤ 8 := by simp [initRowSteps]
    exact .inl (hrows st hrow)

/-- An INIT carries no register but those of its steps (44_lifecycle.md R161). -/
theorem namedOthers_initFrames (p : Params) (v : Int) {a : Byte} (ha : a.toNat < 1 ∨ 8 < a.toNat)
    (hc : a ∉ [p.regDisplayTest, p.regDecodeMode, p.regScanLimit, p.regIntensity, p.regShutdown]) :
    NamedOthers p (initFrames p v) a := by
  intro f hf
  obtain ⟨st, hst, rfl⟩ := List.mem_map.1 hf
  have hreg := mem_initSteps hst
  refine ⟨st.1, regClass_named hreg, fun heq => ?_, frameReg_broadcast p st.1 st.2⟩
  rcases hreg with hrow | hcontrol
  · rw [← heq] at hrow
    omega
  · exact hc (heq ▸ hcontrol)

/-- With nothing in doubt the end of a sequence has no doubt to take away: it is its frames once more. -/
theorem Chips.settle_of_certain {c : Chips} (p : Params) (frames : List Frame) (hd : c.doubtful = false) :
    c.settleRows p frames = frames.foldl (Chips.latch p) c ∧
    c.settleControl p frames = frames.foldl (Chips.latch p) c := by
  obtain ⟨hrows, hcontrol⟩ := Chips.not_doubtful_iff.1 hd
  constructor
  · rw [Chips.settleRows, ← hrows]
  · rw [Chips.settleControl, ← hcontrol]

/-- A complete sequence, its frames landed and its doubt ended, leaves every register it does not carry. -/
theorem Chips.reg_settled_other {p : Params} {c : Chips} {frames : List Frame} {a : Byte} (hd : c.doubtful = false)
    (hf : NamedOthers p frames a) (d : Fin 4) :
    ((frames.foldl (Chips.latch p) c).settleRows p frames).reg p d a = c.reg p d a ∧
    ((frames.foldl (Chips.latch p) c).settleControl p frames).reg p d a = c.reg p d a := by
  have hd' : (frames.foldl (Chips.latch p) c).doubtful = false := by simpa [Chips.not_doubtful_iff] using hd
  obtain ⟨hrows, hcontrol⟩ := Chips.settle_of_certain p frames hd'
  rw [hrows, hcontrol, Chips.reg_latches_other hd' hf, Chips.reg_latches_other hd hf]
  exact ⟨rfl, rfl⟩

/-! ## Complete sequences leave the other registers -/

theorem chipReg_flushed_other {s : State} {a : Byte} (hd : s.chips.doubtful = false)
    (ha : a.toNat < 1 ∨ 8 < a.toNat) (d : Fin 4) : s.flushed.chipReg d a = s.chipReg d a :=
  (Chips.reg_settled_other hd (namedOthers_flushFrames s.params s.fb ha) d).1

/-- A SHUTDOWN whose frames are all accepted whole goes on to its `CLOSE` (44_lifecycle.md R165). -/
theorem exec_shutdown_whole {s : State} (hready : s.lc = .ready) (h : s.AcceptsAll 0 8) :
    exec .shutdown s = .next (closeDown none s.clearFb.flushed) := by
  simp only [exec, execShutdown, if_pos hready, doFlush_whole (s := s.clearFb) h]

/-- No command writes the parameters, so a register is read at the same address before and after. -/
theorem chipReg_of_exec {i : Instr} {s t : State} (he : exec i s = .next t) (d : Fin 4) (a : Byte) :
    t.chipReg d a = t.chips.reg s.params d a := by
  obtain ⟨hparams, -⟩ := onlyFourCommandsWriteFramebuffer i s t he
  rw [State.chipReg, hparams]

@[simp] theorem abandonInit_lc (e : ErrorCode) (f : Fields) (s : State) : (abandonInit e f s).lc = s.lc := by
  rcases answer_cases s 0 with hn | ⟨r, hr⟩
  · simp [abandonInit, closeBus_never hn]
  · simp [abandonInit_given hr]

/-- INIT's frames bring the block to READY only when all are accepted whole. -/
theorem chips_of_sendInitFrames_ready {v : Int} {s : State} (hs : s.lc = .uninit)
    (h : (sendInitFrames v s).lc = .ready) :
    (sendInitFrames v s).chips =
      ((initFrames s.params v).foldl (Chips.latch s.params) s.chips).settleControl s.params (initFrames s.params v) := by
  rcases sendFrames_cases (initFrames s.params v) 0 s with he | ⟨pre, f, post, n, -, -, he⟩ | ⟨pre, f, post, -, he⟩
  · simp only [sendInitFrames, he]
    rfl
  · simp [sendInitFrames, he, hs] at h
  · simp [sendInitFrames, he, hs] at h

/-- An INIT brings the block to READY only by its frames, the bus open and configured. -/
theorem bringUp_of_ready {v : Int} {s : State} (hs : s.lc = .uninit) (h : (bringUp v s.clearFb).lc = .ready) :
    bringUp v s.clearFb = sendInitFrames v s.configured := by
  rcases answer_cases s 0 with hn | ⟨r0, h0⟩
  · simp [bringUp, openBus_never (s := s.clearFb) hn, hs] at h
  cases ho : r0.opens with
  | false => simp [bringUp, openBus_no (s := s.clearFb) h0 ho, hs] at h
  | true =>
    rcases answer_cases s 1 with hn | ⟨r1, h1⟩
    · rw [bringUp_opens h0 ho, configureBus_never (s := s.opened) (by simpa using hn)] at h
      simp [State.opened, hs] at h
    · rw [bringUp_configured h0 ho h1] at h ⊢
      cases hc : r1.rejects with
      | none => rfl
      | some q => simp [hc, State.configured, hs] at h

theorem chipReg_init_other {s t : State} {v : Int} {a : Byte} (hd : s.chips.doubtful = false) (hs : s.lc = .uninit)
    (ht : t.lc = .ready) (he : exec (.init v) s = .next t) (ha : a.toNat < 1 ∨ 8 < a.toNat)
    (hc : a ∉ [s.params.regDisplayTest, s.params.regDecodeMode, s.params.regScanLimit, s.params.regIntensity,
      s.params.regShutdown]) (d : Fin 4) : t.chipReg d a = s.chipReg d a := by
  have hbring : t = bringUp v s.clearFb := by
    simp only [exec, execInit, if_pos hs] at he
    cases he
    rfl
  rw [hbring] at ht
  have hframes := bringUp_of_ready hs ht
  rw [hframes] at ht hbring
  rw [chipReg_of_exec he, hbring, chips_of_sendInitFrames_ready (s := s.configured) hs ht]
  exact (Chips.reg_settled_other hd (namedOthers_initFrames s.params v ha hc) d).2

/-- Settles O53, command by command. -/
theorem completeSequencesKeepOtherRegisters : Obligations.CompleteSequencesKeepOtherRegisters := by
  refine fun s t hd => ⟨?_, fun v hs ht he d a ha hc => chipReg_init_other hd hs ht he ha hc d⟩
  intro i hi hready h he d a ha
  cases i with
  | flush =>
    rw [exec_flush_whole hready h] at he
    cases he
    exact chipReg_flushed_other hd ha d
  | shutdown =>
    rw [chipReg_of_exec he]
    rw [exec_shutdown_whole hready h] at he
    cases he
    rw [closeDown_chips]
    exact chipReg_flushed_other (s := s.clearFb) hd ha d
  | init | setpx | clear | getpx | bcast | row => simp [Instr.op] at hi

end Sys2Proof.Machine

/-! # The framebuffer (42_framebuffer.md): packed bytes; CLEAR, SETPX and GETPX -/

namespace Sys2Proof.Machine

/-! ## Packed bytes -/

/-- A device's 8 columns are read as they are under LSB_LEFT (42_framebuffer.md R126). -/
theorem pack_lsbLeft (w : Word) (d : Fin 4) : pack .lsbLeft w d = w.extractLsb' (8 * d.val) 8 := by
  apply BitVec.eq_of_getLsbD_eq
  intro i hi
  rw [getLsbD_pack .lsbLeft w d ⟨i, hi⟩]
  simp [colOf, hi]

/-- The two polarities read the same columns in opposite orders (42_framebuffer.md R126). -/
theorem pack_msbLeft (w : Word) (d : Fin 4) : pack .msbLeft w d = (pack .lsbLeft w d).reverse := by
  apply BitVec.eq_of_getLsbD_eq
  intro i hi
  have hlsb := getLsbD_pack .lsbLeft w d ⟨7 - i, by omega⟩
  have hmsb := getLsbD_pack .msbLeft w d ⟨i, hi⟩
  simp only [colOf] at hlsb hmsb
  rw [hmsb, ← hlsb, BitVec.getLsbD_reverse, BitVec.getMsbD_eq_getLsbD]
  simp [hi]

/-- Settles O13. -/
theorem packedByteIsSlice : Obligations.PackedByteIsSlice :=
  fun w d => ⟨by rw [pack_msbLeft, pack_lsbLeft], pack_lsbLeft w d⟩

/-- Bit b of a packed byte is the cell of column 8 d + col(b) (42_framebuffer.md R127). -/
theorem getLsbD_pack_row (s : State) (q : BitPolarity) (y : Fin 8) (d : Fin 4) (b : Fin 8) :
    (pack q (s.row y) d).getLsbD b.val = s.cell ⟨8 * d.val + (colOf q b).val, by omega⟩ y :=
  getLsbD_pack q (s.row y) d b

/-- Under MSB_LEFT, column x is bit 7 - x mod 8 of device x div 8, and of no other. -/
theorem msbLeft_column_eq_iff (x : Fin 32) (d : Fin 4) (b : Fin 8) :
    8 * d.val + (colOf .msbLeft b).val = x.val ↔ d.val = x.val / 8 ∧ b.val = 7 - x.val % 8 := by
  simp only [colOf]
  omega

/-- Only the cell (x, y) is on, so only the bit of column x in row y's bytes is. -/
theorem pack_msbLeft_singleCell {s : State} {x : Fin 32} {y : Fin 8}
    (h : ∀ x' y', s.cell x' y' = true ↔ x' = x ∧ y' = y) (y' : Fin 8) (d : Fin 4) :
    pack .msbLeft (s.row y') d = if y' = y ∧ d.val = x.val / 8 then 1#8 <<< (7 - x.val % 8) else 0 := by
  apply BitVec.eq_of_getLsbD_eq
  intro b hb
  have hbit : (pack .msbLeft (s.row y') d).getLsbD b = true ↔
      (d.val = x.val / 8 ∧ b = 7 - x.val % 8) ∧ y' = y := by
    rw [getLsbD_pack_row s .msbLeft y' d ⟨b, hb⟩, h, Fin.ext_iff, msbLeft_column_eq_iff]
  rw [Bool.eq_iff_iff, hbit]
  split
  · next hlit =>
    have hcolumn : 7 - x.val % 8 < 8 := by omega
    simp [← BitVec.twoPow_eq, BitVec.getLsbD_twoPow, hcolumn, hlit, eq_comm]
  · next hdark =>
    simpa using fun hdevice _ hrow => hdark ⟨hrow, hdevice⟩

/-- Settles O14. -/
theorem packedBitIsCell : Obligations.PackedBitIsCell :=
  ⟨getLsbD_pack_row, fun _ _ _ h => pack_msbLeft_singleCell h⟩

/-! ## The cell that a pair of coordinates addresses -/

/-- In range is to be the coordinates of some cell (42_framebuffer.md R120). -/
theorem inRange_iff_exists {x y : Int} :
    InRange x y ↔ ∃ (column : Fin 32) (row : Fin 8), x = column.val ∧ y = row.val := by
  constructor
  · intro h
    exact ⟨⟨x.toNat, by omega⟩, ⟨y.toNat, by omega⟩, by simp only; omega, by simp only; omega⟩
  · rintro ⟨column, row, rfl, rfl⟩
    unfold InRange
    omega

@[simp] theorem cellOf_coordinates (x : Fin 32) (y : Fin 8) : cellOf x.val y.val = some (x, y) :=
  cellOf_inRange (inRange_iff_exists.2 ⟨x, y, rfl, rfl⟩)

/-! ## The three commands -/

/-- Settles O28: CLEAR has no branch. -/
theorem clearTurnsCellsOff : Obligations.ClearTurnsCellsOff := by
  intro s
  simp only [exec, execClear, respond_eq_endWith, endWith_eq_answered, State.clearFb_lc]
  rfl

theorem exec_setpx_cell (s : State) (x : Fin 32) (y : Fin 8) (on : Bool) :
    exec (.setpx x.val y.val on) s = .next ((s.setCell x y on).answered (responseWord .ok s.lc {})) := by
  simp only [exec, execSetpx, cellOf_coordinates, respond_eq_endWith, endWith_eq_answered, State.setCell_lc]

theorem exec_setpx_outOfRange {s : State} {x y : Int} {on : Bool} (h : ¬ InRange x y) :
    exec (.setpx x y on) s = .next (s.answered (responseWord .ok s.lc {})) := by
  simp only [exec, execSetpx, cellOf_outOfRange h, respond_eq_endWith, endWith_eq_answered]

/-- Settles O29: coordinates in range address one cell, and others none. -/
theorem setPixelWritesOneCell : Obligations.SetPixelWritesOneCell := by
  intro s x y on
  by_cases h : InRange x y
  · obtain ⟨column, row, rfl, rfl⟩ := inRange_iff_exists.1 h
    refine ⟨(s.setCell column row on).fb, exec_setpx_cell s column row on, fun x' y' => ?_⟩
    simp only [Nat.cast_inj, ← Fin.ext_iff]
    exact cell_setCell s column x' row y' on
  · refine ⟨s.fb, exec_setpx_outOfRange h, fun x' y' => ?_⟩
    have hother : ¬ ((x'.val : Int) = x ∧ (y'.val : Int) = y) :=
      fun ⟨hx, hy⟩ => h (inRange_iff_exists.2 ⟨x', y', hx.symm, hy.symm⟩)
    rw [if_neg hother]

theorem exec_getpx_cell (s : State) (x : Fin 32) (y : Fin 8) :
    exec (.getpx x.val y.val) s = .next (s.answered (responseWord .ok s.lc { pixel := s.cell x y })) := by
  simp only [exec, execGetpx, cellOf_coordinates, respond_eq_endWith, endWith_eq_answered]

theorem exec_getpx_outOfRange {s : State} {x y : Int} (h : ¬ InRange x y) :
    exec (.getpx x y) s = .next (s.answered (responseWord .outOfRange s.lc {})) := by
  simp only [exec, execGetpx, cellOf_outOfRange h, raise_eq_endWith, endWith_eq_answered]

/-- Settles O30. -/
theorem getPixelReadsOneCell : Obligations.GetPixelReadsOneCell :=
  ⟨exec_getpx_cell, fun _ _ _ => exec_getpx_outOfRange⟩

end Sys2Proof.Machine

/-! # The flush (43_flush.md): its frames, and what a FLUSH answers -/

namespace Sys2Proof.Machine

/-! ## The frame of a row -/

/-- `flushFrame` is what the encoder answers for row selector y + 1, which is always valid (43_flush.md R143). -/
theorem encodeRow_packRow (p : Params) (fb : Vector Word 8) (y : Fin 8) :
    encodeRow p.chainOrder (y.val + 1) (packRow p.bitPolarity fb[y]) = some (flushFrame p fb y) := by
  have hsel : BitVec.ofInt 8 (y.val + 1) = BitVec.ofNat 8 (y.val + 1) := BitVec.ofInt_natCast 8 (y.val + 1)
  rw [encodeRow_inRange (by omega) (by omega), hsel, flushFrame]

/-- Settles O15. -/
theorem flushFramesAreEncodedRows : Obligations.FlushFramesAreEncodedRows := by
  refine fun p fb => ⟨flushFrames_length p fb, fun y => ?_⟩
  have hy : y.val < (flushFrames p fb).length := y.isLt
  rw [encodeRow_packRow, List.getElem?_eq_getElem hy, getElem_flushFrames]

/-- The register that a short row frame is reported with is its row's (60_exceptions.md R192). -/
theorem flushFrames_selector (p : Params) (fb : Vector Word 8) (y : Fin 8) :
    (flushFrames p fb)[y.val][0] = BitVec.ofNat 8 (y.val + 1) := by
  rw [getElem_flushFrames]
  rfl

/-! ## FLUSH in READY -/

/-- Settles O34. -/
theorem flushSendsEightFrames : Obligations.FlushSendsEightFrames := by
  intro s hready h
  have hword : responseWord .ok s.lc {} = 0x00020000 := by
    rw [hready]
    decide
  rw [exec_flush_whole hready h, respond_eq_endWith, endWith_eq_answered, flushed_lc, hword, flushed_eq]
  exact ⟨_, rfl⟩

/-- A flush whose row y is short stops there and names that row's register (40_bus_transport.md R83). -/
theorem doFlush_short_row {s : State} {y : Fin 8} {n : Fin 9} (h : s.AcceptsAll 0 y.val) (h8 : n ≠ 8)
    (hn : s.Accepts y.val n) :
    doFlush s = .done (some { step := y.val, accepted := n.val, reg := BitVec.ofNat 8 (y.val + 1) })
      (s.cutAt (flushFrames s.params s.fb) y.val) := by
  rw [← flushFrames_selector s.params s.fb y]
  exact doFlush_short y.isLt h hn h8

/-- A FLUSH whose row y is short ends with `ShortWrite` (43_flush.md R142). -/
theorem exec_flush_short {s : State} {y : Fin 8} {n : Fin 9} (hready : s.lc = .ready) (h : s.AcceptsAll 0 y.val)
    (h8 : n ≠ 8) (hn : s.Accepts y.val n) :
    exec .flush s = .next ((s.cutAt (flushFrames s.params s.fb) y.val).answered (responseWord .shortWrite .ready
      { step := y.val, accepted := n.val, failReg := BitVec.ofNat 8 (y.val + 1) })) := by
  simp only [exec, execFlush, if_pos hready, doFlush_short_row h h8 hn, ShortAt.fields, raise_eq_endWith,
    endWith_eq_answered, cutAt_lc]
  rw [hready]

/-- Settles O35. -/
theorem shortFlushStopsAtRow : Obligations.ShortFlushStopsAtRow :=
  fun _ _ _ hready h h8 hn => ⟨_, exec_flush_short hready h h8 hn⟩

/-! ## A flush of the cleared framebuffer -/

/-- No column of a blank row word is on. -/
theorem pack_zero (q : BitPolarity) (d : Fin 4) : pack q 0 d = 0 := by
  apply BitVec.eq_of_getLsbD_eq
  intro b hb
  rw [getLsbD_pack q 0 d ⟨b, hb⟩]
  simp

/-- A blank row's bytes are all 0, so its frame is a broadcast under either chain order (41_encoder.md R106). -/
theorem flushFrame_clear (p : Params) (y : Fin 8) :
    flushFrame p (Vector.replicate 8 0) y = encodeBroadcast (BitVec.ofNat 8 (y.val + 1)) 0 := by
  have hrow : (Vector.replicate 8 (0 : Word))[y] = 0 := Vector.getElem_replicate y.isLt
  simp only [flushFrame, hrow, packRow, pack_zero, rowBytes_uniform]

theorem flushFrames_clear (p : Params) :
    flushFrames p (Vector.replicate 8 0) =
      [encodeBroadcast 1 0, encodeBroadcast 2 0, encodeBroadcast 3 0, encodeBroadcast 4 0,
       encodeBroadcast 5 0, encodeBroadcast 6 0, encodeBroadcast 7 0, encodeBroadcast 8 0] := by
  simp only [flushFrames, flushFrame_clear]
  rfl

/-- Settles O37: CLEAR uses no bus request, so the FLUSH after it meets the answers that were to come. -/
theorem clearThenFlushSendsBlankRows : Obligations.ClearThenFlushSendsBlankRows := by
  intro s t hready h hclear
  rw [clearTurnsCellsOff s] at hclear
  cases hclear
  refine ⟨_, exec_flush_whole hready h, ?_⟩
  simp only [respond_eq_endWith, State.endWith_trace, flushed_trace, State.answered_trace, State.answered_fb,
    flushFrames_clear]
  rfl

end Sys2Proof.Machine

/-! # The lifecycle (44_lifecycle.md): states that do not admit a command, CLOSED, SHUTDOWN, INIT -/

namespace Sys2Proof.Machine

/-! ## Commands that the lifecycle state does not admit -/

/-- The check on `LC` comes before everything else a command does (60_exceptions.md R195). -/
theorem guarded_of_lc_ne {s u : State} {l : Lifecycle} (h : s.lc ≠ l) :
    (Host.Outcome.next (if s.lc = l then u else raise .badState {} s) : Host.Outcome State Fault Refusal) =
      .next (s.answered (responseWord .badState s.lc {})) := by
  rw [if_neg h, raise_eq_endWith, endWith_eq_answered]

/-- Settles O43: INIT checks for UNINIT, the other commands that use the bus check for READY. -/
theorem wrongStateAnswersBadState : Obligations.WrongStateAnswersBadState := by
  intro i s h
  cases i with
  | init | flush | shutdown | bcast | row => exact guarded_of_lc_ne (by simpa [NotAdmitted, Instr.op] using h)
  | setpx | clear | getpx => simp [NotAdmitted, Instr.op] at h

/-- The commands that use the bus (44_lifecycle.md R166). -/
abbrev UsesBus (i : Instr) : Prop := i.op ∈ [Op.init, .flush, .shutdown, .bcast, .row]

/-- CLOSED admits no command that uses the bus. -/
theorem exec_closed_of_usesBus {i : Instr} {s : State} (hclosed : s.lc = .closed) (hi : UsesBus i) :
    exec i s = .next (s.answered 0x00040007) := by
  have hna : NotAdmitted i s.lc := by simpa [NotAdmitted, hclosed] using hi
  have hword : responseWord .badState .closed {} = 0x00040007 := by decide
  rw [wrongStateAnswersBadState i s hna, hclosed, hword]

/-- The framebuffer commands never touch the bus (42_framebuffer.md section 2). -/
theorem exec_trace_of_not_usesBus {i : Instr} {s t : State} (hi : ¬ UsesBus i) (he : exec i s = .next t) :
    t.trace = s.trace := by
  cases i with
  | setpx x y on =>
    obtain ⟨fb, hset, -⟩ := setPixelWritesOneCell s x y on
    rw [hset] at he
    cases he
    rfl
  | clear =>
    rw [clearTurnsCellsOff s] at he
    cases he
    rfl
  | getpx x y =>
    cases he
    split <;> rfl
  | init | flush | shutdown | bcast | row => simp [Instr.op] at hi

theorem exec_trace_closed {i : Instr} {s t : State} (hclosed : s.lc = .closed) (he : exec i s = .next t) :
    t.trace = s.trace := by
  by_cases hi : UsesBus i
  · rw [exec_closed_of_usesBus hclosed hi] at he
    cases he
    rfl
  · exact exec_trace_of_not_usesBus hi he

/-- Every move of `LC` that a command makes starts in UNINIT or READY (10_state.md R24). -/
theorem exec_lc_closed {i : Instr} {s t : State} (hclosed : s.lc = .closed) (he : exec i s = .next t) :
    t.lc = .closed := by
  by_contra hne
  obtain ⟨⟨-, huninit, -⟩ | ⟨-, hready, -⟩, -⟩ := lifecycleOnlyMovesForward i s t he (hclosed ▸ hne)
  · cases hclosed.symm.trans huninit
  · cases hclosed.symm.trans hready

/-- Settles O45, by the four things a step can do. -/
theorem closedIsTerminal : Obligations.ClosedIsTerminal := by
  refine ⟨fun s t hclosed hst => ?_, fun i s hclosed hi => exec_closed_of_usesBus hclosed hi⟩
  rcases step_cases hst with rfl | ⟨rest, hreset, rfl⟩ | ⟨rest, -, rfl⟩ | ⟨i, rest, -, he⟩
  · exact ⟨rfl, .inl hclosed⟩
  · exact ⟨rfl, .inr ⟨hreset, rfl⟩⟩
  · exact ⟨rfl, .inl hclosed⟩
  · exact ⟨exec_trace_closed (s := s.accept rest) hclosed he, .inl (exec_lc_closed (s := s.accept rest) hclosed he)⟩

/-! ## SHUTDOWN -/

/-- What SHUTDOWN's `OK` reports of its blanking flush (60_exceptions.md R196). -/
def shutdownFields : Option ShortAt → Fields
  | none => {}
  | some f => { f.fields with logged := true, cause := .shortWrite }

/-- With its `CLOSE` answered, SHUTDOWN reaches CLOSED whether or not its flush failed (44_lifecycle.md R165). -/
theorem closeDown_answered {s : State} (failure : Option ShortAt) (h : s.Answers 0) :
    closeDown failure s =
      State.answered { s.issue .closeBus with lc := .closed, busOpen := false }
        (responseWord .ok .closed (shutdownFields failure)) := by
  obtain ⟨r, hr⟩ := answers_iff.1 h
  cases failure <;> simp only [closeDown, closeBus_given hr] <;> rfl

/-- Settles O41: a completed flush of the cleared framebuffer, then `CLOSE`. -/
theorem shutdownBlanksAndCloses : Obligations.ShutdownBlanksAndCloses := by
  intro s hready h hclose
  have hanswered : s.clearFb.flushed.Answers 0 := by simpa [State.Answers] using hclose
  have hword : responseWord .ok .closed (shutdownFields none) = 0x00040000 := by decide
  refine ⟨s.clearFb.flushed.chips, ?_⟩
  rw [exec_shutdown_whole hready h, closeDown_answered none hanswered, hword, Host.Outcome.next.injEq]
  congr 1
  ext1 <;> simp

/-- A SHUTDOWN whose row y is short goes on to its `CLOSE` (44_lifecycle.md R165). -/
theorem exec_shutdown_short {s : State} {y : Fin 8} {n : Fin 9} (hready : s.lc = .ready)
    (h : s.AcceptsAll 0 y.val) (h8 : n ≠ 8) (hn : s.Accepts y.val n) :
    exec .shutdown s = .next (closeDown
      (some { step := y.val, accepted := n.val, reg := BitVec.ofNat 8 (y.val + 1) })
      (s.clearFb.cutAt (flushFrames s.params (Vector.replicate 8 0)) y.val)) := by
  simp only [exec, execShutdown, if_pos hready, doFlush_short_row (s := s.clearFb) h h8 hn]
  rfl

/-- Settles O42: the flush stops at row y, and the `CLOSE` follows all the same. -/
theorem shutdownClosesDespiteShortWrite : Obligations.ShutdownClosesDespiteShortWrite := by
  intro s y n hready h h8 hn hclose
  have hanswered : (s.clearFb.cutAt (flushFrames s.params (Vector.replicate 8 0)) y.val).Answers 0 := by
    rw [State.Answers, answer_cutAt s.clearFb y.isLt]
    exact hclose
  refine ⟨(s.clearFb.cutAt (flushFrames s.params (Vector.replicate 8 0)) y.val).chips, ?_⟩
  rw [exec_shutdown_short hready h h8 hn, closeDown_answered _ hanswered, Host.Outcome.next.injEq]
  congr 1
  ext1 <;> simp

/-- Settles O58: the `CLOSE` leaves the chips as the flush of the cleared framebuffer left them. -/
theorem shutdownBlanksPanel : Obligations.ShutdownBlanksPanel := by
  intro s hready h hclose
  have hanswered : s.clearFb.flushed.Answers 0 := by simpa [State.Answers] using hclose
  refine ⟨_, exec_shutdown_whole hready h, fun x y => ?_⟩
  rw [closeDown_answered none hanswered]
  exact (led_flushed s.clearFb x y).trans (cell_clearFb s x y)

/-! ## The frames of INIT -/

theorem clamp_of_neg {v : Int} (h : v < 0) : clamp v = 0 := if_pos h

theorem clamp_of_gt {v : Int} (h : 15 < v) : clamp v = 15 :=
  (if_neg (by simp only [Config.intensityMin]; omega)).trans (if_pos h)

theorem clamp_of_inRange {v : Int} (h0 : 0 ≤ v) (h15 : v ≤ 15) : clamp v = v :=
  (if_neg (Int.not_lt.2 h0)).trans (if_neg (Int.not_lt.2 h15))

theorem clamp_bounds (v : Int) : 0 ≤ clamp v ∧ clamp v ≤ 15 := by
  by_cases h0 : v < 0
  · rw [clamp_of_neg h0]
    decide
  by_cases h15 : 15 < v
  · rw [clamp_of_gt h15]
    decide
  · rw [clamp_of_inRange (by omega) (by omega)]
    omega

/-- The clamped intensity fits in its byte (44_lifecycle.md R162). -/
theorem toNat_intensityByte (v : Int) : ((intensityByte v).toNat : Int) = clamp v := by
  have hbounds := clamp_bounds v
  simp only [intensityByte, BitVec.toNat_ofInt]
  omega

/-- Settles O16. -/
theorem intensityIsClamped : Obligations.IntensityIsClamped := by
  intro v
  have hbyte := toNat_intensityByte v
  have hbounds := clamp_bounds v
  exact ⟨clamp_of_neg, clamp_of_gt, clamp_of_inRange, hbyte, by omega⟩

/-- Settles O17: the list of steps, written out. -/
theorem initFramesInOrder : Obligations.InitFramesInOrder :=
  ⟨fun _ _ => rfl, fun _ => rfl⟩

/-! ## INIT -/

theorem abandonInit_answered {s : State} (e : ErrorCode) (f : Fields) (h : s.Answers 0) :
    abandonInit e f s =
      State.answered { s.issue .closeBus with busOpen := false } (responseWord e s.lc f) := by
  obtain ⟨r, hr⟩ := answers_iff.1 h
  exact abandonInit_given hr

/-- An INIT that cannot open the bus reports it (40_bus_transport.md R81). -/
theorem exec_init_unavailable {s : State} {v : Int} {r0 : Reply} (hs : s.lc = .uninit)
    (h0 : s.answer 0 = .given r0) (ho : r0.opens = false) :
    exec (.init v) s = .next (raise .busUnavailable {} (s.clearFb.issue .openBus)) := by
  simp only [exec, execInit, if_pos hs, bringUp, openBus_no (s := s.clearFb) h0 ho]

/-- An INIT whose configuration is rejected closes the bus again (40_bus_transport.md R82). -/
theorem exec_init_rejected {s : State} {v : Int} {r0 r1 : Reply} {p : CfgParam} (hs : s.lc = .uninit)
    (h0 : s.answer 0 = .given r0) (ho : r0.opens = true) (h1 : s.answer 1 = .given r1) (hc : r1.rejects = some p) :
    exec (.init v) s = .next (abandonInit .configurationError { cfgParam := cfgParamCode p } s.configured) := by
  simp only [exec, execInit, if_pos hs, bringUp_configured h0 ho h1, hc]

/-- An INIT whose bus is open and configured goes on to its frames (44_lifecycle.md R163). -/
theorem exec_init_configured {s : State} {v : Int} {r0 r1 : Reply} (hs : s.lc = .uninit)
    (h0 : s.answer 0 = .given r0) (ho : r0.opens = true) (h1 : s.answer 1 = .given r1) (hc : r1.rejects = none) :
    exec (.init v) s = .next (sendInitFrames v s.configured) := by
  simp only [exec, execInit, if_pos hs, bringUp_configured h0 ho h1, hc]

theorem acceptsAll_configured {s : State} {m : Nat} (h : s.AcceptsAll 2 m) : s.configured.AcceptsAll 0 m :=
  fun j hj => accepts_configured.2 (by simpa using h j hj)

/-- Settles O39: an INIT stopped at its `OPEN`, and one stopped at its `CONFIGURE`. -/
theorem initFailsBeforeFrames : Obligations.InitFailsBeforeFrames := by
  refine fun s v r0 hs h0 => ⟨fun ho => ?_, fun r1 p ho h1 hc hclose => ?_⟩
  · have hword : responseWord .busUnavailable .uninit {} = 0x00000001 := by decide
    have hlc : (s.clearFb.issue .openBus).lc = .uninit := hs
    rw [exec_init_unavailable hs h0 ho, raise_eq_endWith, endWith_eq_answered, hlc, hword, Host.Outcome.next.injEq]
    congr 1
    ext1 <;> simp
  · have hanswered : s.configured.Answers 0 := by simpa [State.Answers] using hclose
    have hlc : s.configured.lc = .uninit := hs
    rw [exec_init_rejected hs h0 ho h1 hc, abandonInit_answered _ _ hanswered, hlc, Host.Outcome.next.injEq]
    congr 1
    · ext1 <;> simp [State.configured]
    · cases p <;> decide

/-- INIT's frames all accepted whole (44_lifecycle.md R163). -/
theorem sendInitFrames_whole {s : State} {v : Int} (h : s.AcceptsAll 0 13) :
    ∃ c, sendInitFrames v s =
      State.answered { s.afterRequests (writes (initFrames s.params v)) with lc := .ready, chips := c } 0x00020000 := by
  have hword : responseWord .ok .ready {} = 0x00020000 := by decide
  rw [sendInitFrames, sendFrames_whole (fs := initFrames s.params v) h, ← hword]
  exact ⟨_, rfl⟩

/-- Settles O38. -/
theorem initBringsBlockUp : Obligations.InitBringsBlockUp := by
  intro s v r0 r1 hs h0 ho h1 hc h
  obtain ⟨c, hframes⟩ := sendInitFrames_whole (v := v) (acceptsAll_configured h)
  refine ⟨c, ?_⟩
  rw [exec_init_configured hs h0 ho h1 hc, hframes, Host.Outcome.next.injEq]
  congr 1
  ext1 <;> simp [State.configured]

/-- INIT's frame k short: the frames stop there, and the `CLOSE` is answered (44_lifecycle.md R163). -/
theorem sendInitFrames_short {s : State} {v : Int} {k : Fin 13} {n : Fin 9} (h : s.AcceptsAll 0 k.val) (h8 : n ≠ 8)
    (hn : s.Accepts k.val n) (hclose : s.Answers (k.val + 1)) :
    sendInitFrames v s =
      State.answered { (s.cutAt (initFrames s.params v) k.val).issue .closeBus with busOpen := false }
        (responseWord .deviceInitError s.lc
          { cause := .shortWrite, step := k.val, accepted := n.val,
            failReg := (initFrames s.params v)[k.val][0] }) := by
  have hanswered : (s.cutAt (initFrames s.params v) k.val).Answers 0 := by
    rw [State.Answers, answer_cutAt s k.isLt]
    exact hclose
  rw [sendInitFrames, sendFrames_short_at (frames := initFrames s.params v) k.isLt h hn h8]
  exact abandonInit_answered _ _ hanswered

/-- Settles O40. -/
theorem initFailsAtShortFrame : Obligations.InitFailsAtShortFrame := by
  intro s v r0 r1 k n hs h0 ho h1 hc h h8 hn hclose
  have hnext : 2 + (k.val + 1) = 3 + k.val := by omega
  have hanswered : s.configured.Answers (k.val + 1) := by
    rw [State.Answers, answer_configured, hnext]
    exact hclose
  refine ⟨(s.configured.cutAt (initFrames s.params v) k.val).chips, ?_⟩
  rw [exec_init_configured hs h0 ho h1 hc,
    sendInitFrames_short (acceptsAll_configured h) h8 (accepts_configured.2 hn) hanswered, Host.Outcome.next.injEq,
    ← initFrames_reg s.params v k]
  have hlc : s.configured.lc = .uninit := hs
  have hrequests : 3 + k.val + 1 = 4 + k.val := by omega
  rw [hlc]
  congr 1
  ext1 <;> simp [State.configured, hnext, hrequests]

end Sys2Proof.Machine

/-! # Responses and errors (60_exceptions.md): the response word, no fault, and the panel after INIT -/

namespace Sys2Proof.Machine

/-! ## The response word -/

/-- Settles O18: each conjunct is the accessor of its field read from a response word. -/
theorem responseWordLayout : Obligations.ResponseWordLayout :=
  ⟨by decide, fun e lc f =>
    ⟨respCode_responseWord e lc f, respCause_responseWord e lc f, respStep_responseWord e lc f,
      respAccepted_responseWord e lc f, respPixel_responseWord e lc f, respLc_responseWord e lc f,
      respLogged_responseWord e lc f, respCfgParam_responseWord e lc f, respReserved_responseWord e lc f,
      respFailReg_responseWord e lc f⟩⟩

/-- Settles O19. -/
theorem plainSuccessWords : Obligations.PlainSuccessWords :=
  ⟨by decide, by decide, by decide⟩

/-! ## No step stops the machine -/

/-- Every arm answers a next state: an error is a response (60_exceptions.md R190), a hang a busy block
(40_bus_transport.md R89). -/
theorem exec_answers_next (i : Instr) (s : State) : ∃ t, exec i s = .next t := by
  cases i with
  | init | setpx | clear | flush | shutdown | getpx | bcast | row => exact ⟨_, rfl⟩

/-- Settles O27, by what the command port gives the block. -/
theorem everyStepAnswersNext : Obligations.EveryStepAnswersNext := by
  intro s
  unfold step
  cases s.portAction with
  | stay | reset | illegal => exact ⟨_, rfl⟩
  | run i rest => exact exec_answers_next i (s.accept rest)

/-! ## The registers after a complete INIT -/

/-- An INIT whose requests are all answered well completes, and its frames settle the control registers
(44_lifecycle.md R163, 70_reset_and_hazards.md R228). -/
theorem exec_init_whole {s : State} {v : Int} {r0 r1 : Reply} (hs : s.lc = .uninit) (h0 : s.answer 0 = .given r0)
    (ho : r0.opens = true) (h1 : s.answer 1 = .given r1) (hc : r1.rejects = none) (h : s.AcceptsAll 2 13) :
    ∃ t, exec (.init v) s = .next t ∧ t.params = s.params ∧
      t.chips = ((initFrames s.params v).foldl (Chips.latch s.params) s.chips).settleControl s.params
        (initFrames s.params v) := by
  obtain ⟨c, hframes⟩ := sendInitFrames_whole (v := v) (acceptsAll_configured h)
  have hlc : (sendInitFrames v s.configured).lc = .ready := by
    rw [hframes]
    rfl
  refine ⟨_, exec_init_configured hs h0 ho h1 hc, ?_, chips_of_sendInitFrames_ready (s := s.configured) hs hlc⟩
  rw [hframes]
  rfl

/-- The broadcast frames of a list of (register, data) pairs (41_encoder.md R100). -/
abbrev broadcasts (steps : List (Byte × Byte)) : List Frame := steps.map fun st => encodeBroadcast st.1 st.2

theorem initFrames_eq_broadcasts (p : Params) (v : Int) :
    initFrames p v = broadcasts (initControlSteps p v ++ initRowSteps) := rfl

/-- Where the registers of a run of broadcasts are distinct, each holds its data byte after the run. -/
theorem Chips.holds_broadcasts {p : Params} {c : Chips} {steps : List (Byte × Byte)} {st : Byte × Byte}
    (hdistinct : (steps.map Prod.fst).Nodup) (hst : st ∈ steps) (ht : c.trusts p st.1 = true) (d : Fin 4) :
    ((broadcasts steps).foldl (Chips.latch p) c).Holds p d st.1 st.2 := by
  obtain ⟨before, after, rfl⟩ := List.append_of_mem hst
  have hlater : ∀ st' ∈ after, st.1 ≠ st'.1 := by
    simp only [List.map_append, List.map_cons] at hdistinct
    have hnot := (List.nodup_cons.1 (List.nodup_append.1 hdistinct).2.1).1
    exact fun st' hst' heq => hnot (heq ▸ List.mem_map_of_mem hst')
  have hne : ∀ g ∈ broadcasts after, st.1 ≠ frameReg p g d := by
    intro g hg
    obtain ⟨st', hst', rfl⟩ := List.mem_map.1 hg
    rw [frameReg_broadcast]
    exact hlater st' hst'
  have hholds := Chips.holds_latches_last (broadcasts before) (broadcasts after) ht
    (frameReg_broadcast p st.1 st.2 d) hne
  rw [broadcasts, List.map_append, List.map_cons]
  rwa [frameData_broadcast] at hholds

/-- INIT writes the five control registers in an order of its own (44_lifecycle.md R161). -/
theorem initControlSteps_registers_perm (p : Params) (v : Int) :
    ((initControlSteps p v).map Prod.fst).Perm
      [p.regDisplayTest, p.regDecodeMode, p.regIntensity, p.regScanLimit, p.regShutdown] :=
  ((List.Perm.swap _ _ _).cons _).cons _

/-- With the control registers distinct, so are the registers of INIT's 13 steps (44_lifecycle.md R161). -/
theorem nodup_initSteps {p : Params} (hp : DistinctControl p) (v : Int) :
    ((initControlSteps p v ++ initRowSteps).map Prod.fst).Nodup := by
  obtain ⟨hcontrol, hnotRow⟩ := hp
  have hperm := initControlSteps_registers_perm p v
  have hrows : ∀ a ∈ initRowSteps.map Prod.fst, 1 ≤ a.toNat ∧ a.toNat ≤ 8 := by decide
  rw [List.map_append, List.nodup_append]
  refine ⟨hperm.nodup_iff.2 hcontrol, by decide, ?_⟩
  rintro a ha b hb rfl
  exact hnotRow a (hperm.mem_iff.1 ha) (hrows a hb)

/-- With the control registers not in doubt, a frame for one of them is known to land. -/
theorem Chips.trusts_initControlStep {p : Params} {c : Chips} {v : Int} {st : Byte × Byte} (hp : DistinctControl p)
    (hc : c.controlDoubtful = false) (hst : st ∈ initControlSteps p v) : c.trusts p st.1 = true := by
  have hmem : st.1 ∈ [p.regDisplayTest, p.regDecodeMode, p.regIntensity, p.regScanLimit, p.regShutdown] :=
    (initControlSteps_registers_perm p v).mem_iff.1 (List.mem_map_of_mem hst)
  have hclass : regClass p st.1 = .control := by
    rw [regClass, if_neg (hp.2 _ hmem), if_pos (by simpa using hmem)]
  simp [Chips.trusts, hclass, hc]

section SettledControl

variable {p : Params} (hp : DistinctControl p) (c : Chips) (v : Int)
include hp

/-- A complete INIT leaves in each register of its steps that is not in doubt the step's data byte. -/
theorem Chips.reg_settleControl_initFrames {st : Byte × Byte} (hst : st ∈ initControlSteps p v ++ initRowSteps)
    (ht : Chips.trusts p { c with controlDoubtful := false } st.1 = true) (d : Fin 4) :
    (c.settleControl p (initFrames p v)).reg p d st.1 = st.2 := by
  rw [Chips.settleControl, initFrames_eq_broadcasts]
  exact Chips.reg_of_holds (Chips.holds_broadcasts (nodup_initSteps hp v) hst ht d)

/-- Every control register holds its step's byte, whatever the chips held (70_reset_and_hazards.md R228). -/
theorem Chips.reg_settleControl_control {st : Byte × Byte} (hst : st ∈ initControlSteps p v) (d : Fin 4) :
    (c.settleControl p (initFrames p v)).reg p d st.1 = st.2 :=
  Chips.reg_settleControl_initFrames hp c v (List.mem_append_left _ hst) (trusts_initControlStep hp rfl hst) d

/-- Every row register not in doubt is blank. -/
theorem Chips.reg_settleControl_row (hrows : c.rowsDoubtful = false) (d : Fin 4) (y : Fin 8) :
    (c.settleControl p (initFrames p v)).reg p d (BitVec.ofNat 8 (y.val + 1)) = 0 := by
  have hstep : ∀ y : Fin 8, (BitVec.ofNat 8 (y.val + 1), 0) ∈ initRowSteps := by decide
  exact Chips.reg_settleControl_initFrames hp c v (List.mem_append_right _ (hstep y))
    (trusts_rowAddress (c := { c with controlDoubtful := false }) hrows y) d

end SettledControl

/-- Settles O57: control registers and blank rows are both bytes that INIT's steps left. -/
theorem initMakesPanelBlankAndOn : Obligations.InitMakesPanelBlankAndOn := by
  intro s v r0 r1 hs h0 ho h1 hc h hdistinct
  obtain ⟨t, he, hparams, hchips⟩ := exec_init_whole (v := v) hs h0 ho h1 hc h
  refine ⟨t, he, fun d => ?_, fun hrows x y => ?_⟩
  · have hcontrol : ∀ st ∈ initControlSteps s.params v, t.chipReg d st.1 = st.2 := fun st hst => by
      rw [State.chipReg, hparams, hchips]
      exact Chips.reg_settleControl_control hdistinct _ v hst d
    simp only [initControlSteps, List.forall_mem_cons] at hcontrol
    obtain ⟨htest, hdecode, hscan, hintensity, hshutdown, -⟩ := hcontrol
    rw [State.showsRows, hparams]
    exact ⟨⟨htest, hdecode, hscan, hshutdown⟩, hintensity⟩
  · rw [State.led, State.chipReg, hparams, hchips,
      Chips.reg_settleControl_row hdistinct _ v (by simpa using hrows)]
    exact BitVec.getLsbD_zero

end Sys2Proof.Machine

/-! # Reset and hazards (70_reset_and_hazards.md): reset, the idle block, and the doubt after a short write -/

namespace Sys2Proof.Machine

/-! ## What ends the doubt -/

/-- Whatever is in doubt in `s` is still in doubt in `t` (70_reset_and_hazards.md R228). -/
structure DoubtLasts (s t : State) : Prop where
  rows    : s.chips.rowsDoubtful = true → t.chips.rowsDoubtful = true
  control : s.chips.controlDoubtful = true → t.chips.controlDoubtful = true

theorem DoubtLasts.of_chips_eq {s t : State} (h : t.chips = s.chips) : DoubtLasts s t := by
  constructor <;> rw [h] <;> exact id

/-- A short write puts everything in doubt (40_bus_transport.md R84). -/
theorem ChipsSpoiledSince.doubtLasts {s t : State} (h : ChipsSpoiledSince s t) : DoubtLasts s t := by
  obtain ⟨c, -, ht⟩ := h
  constructor <;> rw [ht] <;> exact fun _ => rfl

/-- A run of frames is accepted whole, or it stops, short or hung, with the chips unknown (log 4). -/
theorem sendFrames_whole_or_spoiled (frames : List Frame) (s : State) :
    s.AcceptsAll 0 frames.length ∨ ∃ u, ChipsSpoiledSince s u ∧
      ((∃ f, sendFrames frames 0 s = .done (some f) u) ∨ sendFrames frames 0 s = .hung u) := by
  rcases frames_fate_at s frames.length with h | ⟨k, hk, h, hn | ⟨n, hn, h8⟩⟩
  · exact .inl h
  · exact .inr ⟨{ s.cutAt frames k with busy := true }, chipsSpoiledSince_cutAt s frames k,
      .inr (sendFrames_never_at hk h hn)⟩
  · exact .inr ⟨_, chipsSpoiledSince_cutAt s frames k, .inl ⟨_, sendFrames_short_at hk h hn h8⟩⟩

theorem doFlush_whole_or_spoiled (s : State) :
    s.AcceptsAll 0 8 ∨ ∃ u, ChipsSpoiledSince s u ∧
      ((∃ f, doFlush s = .done (some f) u) ∨ doFlush s = .hung u) := by
  rcases sendFrames_whole_or_spoiled (flushFrames s.params s.fb) s with h | ⟨u, hu, ⟨f, he⟩ | he⟩
  · exact .inl h
  · exact .inr ⟨u, hu, .inl ⟨f, by rw [doFlush, he]⟩⟩
  · exact .inr ⟨u, hu, .inr (by rw [doFlush, he])⟩

/-- Everything a command can do to the doubt. -/
inductive DoubtChange (i : Instr) (s t : State) : Prop where
  | lasts (doubt : DoubtLasts s t)
  | flushed (op : i.op = .flush ∨ i.op = .shutdown) (ready : s.lc = .ready) (whole : s.AcceptsAll 0 8)
      (control : t.chips.controlDoubtful = s.chips.controlDoubtful)
  | initialised (op : i.op = .init) (ready : t.lc = .ready) (whole : s.AcceptsAll 2 13)
      (rows : t.chips.rowsDoubtful = s.chips.rowsDoubtful)

@[simp] theorem flushed_controlDoubtful (s : State) :
    s.flushed.chips.controlDoubtful = s.chips.controlDoubtful := by
  simp [State.flushed, Chips.settleRows]

theorem doubtChange_flush {s t : State} (hready : s.lc = .ready) (he : exec .flush s = .next t) :
    DoubtChange .flush s t := by
  rcases doFlush_whole_or_spoiled s with h | ⟨u, hu, ⟨f, hf⟩ | hf⟩
  · rw [exec_flush_whole hready h] at he
    cases he
    exact .flushed (.inl rfl) hready h (flushed_controlDoubtful s)
  · simp only [exec, execFlush, if_pos hready, hf] at he
    cases he
    exact .lasts (ChipsSpoiledSince.doubtLasts hu)
  · simp only [exec, execFlush, if_pos hready, hf] at he
    cases he
    exact .lasts hu.doubtLasts

theorem doubtChange_shutdown {s t : State} (hready : s.lc = .ready) (he : exec .shutdown s = .next t) :
    DoubtChange .shutdown s t := by
  rcases doFlush_whole_or_spoiled s.clearFb with h | ⟨u, hu, ⟨f, hf⟩ | hf⟩
  · rw [exec_shutdown_whole hready h] at he
    cases he
    refine .flushed (.inr rfl) hready h ?_
    rw [closeDown_chips, flushed_controlDoubtful, State.clearFb_chips]
  · simp only [exec, execShutdown, if_pos hready, hf] at he
    cases he
    refine .lasts (ChipsSpoiledSince.doubtLasts ?_)
    rw [ChipsSpoiledSince, closeDown_chips]
    exact hu
  · simp only [exec, execShutdown, if_pos hready, hf] at he
    cases he
    exact .lasts (ChipsSpoiledSince.doubtLasts hu)

/-- A single frame ends no doubt, even accepted whole (70_reset_and_hazards.md R228). -/
theorem doubtLasts_sendAndRespond (f : Frame) (s : State) : DoubtLasts s (sendAndRespond f s) := by
  rcases answer_cases s 0 with hn | ⟨r, hr⟩
  · rw [sendAndRespond, sendFrame_never hn]
    exact ChipsSpoiledSince.doubtLasts ⟨s.chips, Nat.le_refl _, rfl⟩
  · have hn : s.Accepts 0 r.accepts := accepts_iff.2 ⟨r, hr, rfl⟩
    by_cases h8 : r.accepts = 8
    · rw [sendAndRespond_whole (h8 ▸ hn)]
      exact ⟨(Chips.latch_rowsDoubtful s.params s.chips f).trans, (Chips.latch_controlDoubtful s.params s.chips f).trans⟩
    · exact (chipsSpoiledSince_sendAndRespond f hn h8).doubtLasts

/-- An INIT that never reaches its frames leaves the chips alone (44_lifecycle.md R163). -/
theorem bringUp_chips_or_frames (v : Int) (s : State) :
    (bringUp v s.clearFb).chips = s.chips ∨ bringUp v s.clearFb = sendInitFrames v s.configured := by
  rcases answer_cases s 0 with hn | ⟨r0, h0⟩
  · exact .inl (by simp [bringUp, openBus_never (s := s.clearFb) hn])
  cases ho : r0.opens with
  | false => exact .inl (by simp [bringUp, openBus_no (s := s.clearFb) h0 ho])
  | true =>
    rcases answer_cases s 1 with hn | ⟨r1, h1⟩
    · rw [bringUp_opens h0 ho, configureBus_never (s := s.opened) (by simpa using hn)]
      exact .inl rfl
    · rw [bringUp_configured h0 ho h1]
      cases r1.rejects with
      | none => exact .inr rfl
      | some p => exact .inl (abandonInit_chips _ _ s.configured)

/-- INIT's frames, all accepted whole, bring the block to READY and leave the rows as doubtful as they were. -/
theorem sendInitFrames_whole_or_doubtLasts {v : Int} {s : State} (hs : s.lc = .uninit) :
    (s.AcceptsAll 0 13 ∧ (sendInitFrames v s).lc = .ready ∧
      (sendInitFrames v s).chips.rowsDoubtful = s.chips.rowsDoubtful) ∨ DoubtLasts s (sendInitFrames v s) := by
  rcases sendFrames_whole_or_spoiled (initFrames s.params v) s with h | ⟨u, hu, ⟨f, he⟩ | he⟩
  · have hlc : (sendInitFrames v s).lc = .ready := by
      obtain ⟨c, hframes⟩ := sendInitFrames_whole (v := v) h
      rw [hframes]
      rfl
    refine .inl ⟨h, hlc, ?_⟩
    rw [chips_of_sendInitFrames_ready hs hlc]
    simp [Chips.settleControl]
  · right
    apply ChipsSpoiledSince.doubtLasts
    rw [sendInitFrames, he, ChipsSpoiledSince, abandonInit_chips]
    exact hu
  · rw [sendInitFrames, he]
    exact .inr hu.doubtLasts

theorem doubtChange_init {s t : State} {v : Int} (hs : s.lc = .uninit) (he : exec (.init v) s = .next t) :
    DoubtChange (.init v) s t := by
  simp only [exec, execInit, if_pos hs] at he
  cases he
  rcases bringUp_chips_or_frames v s with hchips | hframes
  · exact .lasts (.of_chips_eq hchips)
  · rw [hframes]
    rcases sendInitFrames_whole_or_doubtLasts (s := s.configured) hs with ⟨h, hlc, hrows⟩ | hlasts
    · exact .initialised rfl hlc (fun j hj => accepts_configured.1 (by simpa using h j hj)) hrows
    · exact .lasts ⟨hlasts.rows, hlasts.control⟩

/-- The framebuffer commands leave the chips alone (42_framebuffer.md section 2). -/
theorem exec_chips_of_not_usesBus {i : Instr} {s t : State} (hi : ¬ UsesBus i) (he : exec i s = .next t) :
    t.chips = s.chips := by
  cases i with
  | setpx | getpx =>
    cases he
    split <;> rfl
  | clear =>
    cases he
    rfl
  | init | flush | shutdown | bcast | row => simp [Instr.op] at hi

/-- The doubt ends with a complete sequence of the commands that have one, and with nothing else. -/
theorem exec_doubtChange {i : Instr} {s t : State} (he : exec i s = .next t) : DoubtChange i s t := by
  by_cases hna : NotAdmitted i s.lc
  · rw [wrongStateAnswersBadState i s hna] at he
    cases he
    exact .lasts (.of_chips_eq rfl)
  cases i with
  | init v => exact doubtChange_init (by simpa [NotAdmitted, Instr.op] using hna) he
  | flush => exact doubtChange_flush (by simpa [NotAdmitted, Instr.op] using hna) he
  | shutdown => exact doubtChange_shutdown (by simpa [NotAdmitted, Instr.op] using hna) he
  | setpx | clear | getpx => exact .lasts (.of_chips_eq (exec_chips_of_not_usesBus (by simp [Instr.op]) he))
  | bcast reg data =>
    have hready : s.lc = .ready := by simpa [NotAdmitted, Instr.op] using hna
    rw [exec_bcast_ready hready] at he
    cases he
    exact .lasts (doubtLasts_sendAndRespond _ s)
  | row r D =>
    have hready : s.lc = .ready := by simpa [NotAdmitted, Instr.op] using hna
    simp only [exec, execRow, if_pos hready] at he
    cases he
    split
    · exact .lasts (doubtLasts_sendAndRespond _ s)
    · exact .lasts (.of_chips_eq rfl)

/-- A register of a class that is in doubt is not trusted, so it reads as a free value (log 10). -/
theorem chipReg_doubtful {s : State} {a : Byte}
    (h : s.chips.rowsDoubtful = true ∧ regClass s.params a = .row ∨
      s.chips.controlDoubtful = true ∧ regClass s.params a = .control) (d : Fin 4) :
    s.chipReg d a = Config.chipByte s.chips.epoch (chipAddress d a) := by
  apply Chips.reg_of_untrusted
  rcases h with ⟨hdoubt, hclass⟩ | ⟨hdoubt, hclass⟩ <;> simp [Chips.trusts, hclass, hdoubt]

/-- Settles O55: a doubt that a command ended did not last, so it ended with one of the two complete sequences, and each
of these leaves the other doubt as it was. -/
theorem doubtEndsWithCompleteSequence : Obligations.DoubtEndsWithCompleteSequence := by
  refine ⟨fun i s t he => ?_, fun s d a =>
    ⟨fun hdoubt hclass => chipReg_doubtful (.inl ⟨hdoubt, hclass⟩) d,
      fun hdoubt hclass => chipReg_doubtful (.inr ⟨hdoubt, hclass⟩) d⟩⟩
  cases exec_doubtChange he with
  | lasts doubt =>
    exact ⟨fun hs ht => absurd (doubt.rows hs) (by simp [ht]), fun hs ht => absurd (doubt.control hs) (by simp [ht])⟩
  | flushed op ready whole control =>
    exact ⟨fun _ _ => ⟨op, ready, whole⟩, fun hs ht => absurd (control.trans hs) (by simp [ht])⟩
  | initialised op ready whole rows =>
    exact ⟨fun hs ht => absurd (rows.trans hs) (by simp [ht]), fun _ _ => ⟨op, ready, whole⟩⟩

/-! ## Reset, and the idle block -/

theorem step_reset {s : State} {rest : List HostEvent} (h : s.portAction = .reset rest) :
    step s = .next (s.onReset rest) := by
  simp only [step, h]

/-- A busy block takes the first reset, and the commands before it stay offered (log 5). -/
theorem portAction_busy_reset {s : State} {waiting rest : List HostEvent} (hb : s.busy = true)
    (hw : HostEvent.reset ∉ waiting) (hi : s.inbox = waiting ++ .reset :: rest) :
    s.portAction = .reset (waiting ++ rest) := by
  have herase : (waiting ++ HostEvent.reset :: rest).erase .reset = waiting ++ rest := by
    rw [List.erase_append_right _ hw, List.erase_cons_head]
  simp [State.portAction, hb, hi, herase]

/-- A reset offered first is taken, whether or not the block is busy (70_reset_and_hazards.md R220). -/
theorem portAction_reset_first {s : State} {rest : List HostEvent} (hi : s.inbox = .reset :: rest) :
    s.portAction = .reset rest := by
  cases hb : s.busy with
  | true => exact portAction_busy_reset (waiting := []) hb List.not_mem_nil hi
  | false => simp [State.portAction, hb, hi]

/-- Settles O25. -/
theorem resetPassesWaitingCommands : Obligations.ResetPassesWaitingCommands :=
  fun _ _ _ hb hw hi => step_reset (portAction_busy_reset hb hw hi)

/-- Settles O24. -/
theorem resetSetsStateVector : Obligations.ResetSetsStateVector :=
  fun _ _ hi => ⟨step_reset (portAction_reset_first hi), rfl, rfl, rfl, rfl, rfl⟩

theorem portAction_idle {s : State} (hb : s.busy = false) (hi : s.inbox = []) : s.portAction = .stay := by
  simp [State.portAction, hb, hi]

/-- Settles O26. -/
theorem idleBlockStays : Obligations.IdleBlockStays :=
  fun _ hb hi => step_stay (portAction_idle hb hi)

end Sys2Proof.Machine

/-! # The words of the spec's test vectors (95_test_vectors.md 2.1, 2.2) -/

namespace Sys2Proof

/-- The words that a well-formed command encodes to decode to it. -/
theorem decode_of_encode_eq {i : Instr} {cmd arg : Word} (hi : i.WellFormed) (h : encode i = (cmd, arg)) :
    decode cmd arg = .ok i := by
  simpa only [h] using encodedCommandsDecode i hi

/-- Settles O7: each legal word is the encoding of the command that the file gives for it; no row of the opcode map
selects the last two, of which the first alone has a row's opcode. -/
theorem specWordsDecode : Obligations.SpecWordsDecode := by
  refine ⟨?init, ?setpx, ?setpxExtreme, ?clear, ?flush, ?shutdown, ?getpx, ?bcast, ?row, ?reservedBit, ?reservedOpcode⟩
  case init | setpx | setpxExtreme | clear | flush | shutdown | getpx | bcast | row =>
    exact decode_of_encode_eq (by decide) (by decide)
  case reservedBit | reservedOpcode => decide

end Sys2Proof
